-- ==== Sys2Proof/Word.lean ====
section
/-! DEFINITION. The bit vectors of the block: bytes, command words, W-bit words and 64-bit results. -/

namespace Sys2Proof

/-- A byte of the slice memory (20_memory.md R40). -/
abbrev Byte := BitVec 8

/-- A command word: always 32 bits, whatever `W` is (30_encoding.md R60). -/
abbrev CmdWord := BitVec 32

/-- A `W`-bit unsigned value, `W` being 32 or 64, zero-extended to 64 bits: for `W = 32` only the low 32 bits
are live (00_scope.md R7, R13; log entry 6). -/
abbrev Word := BitVec 64

/-- A result of `FIN`: always 64 bits (42_finalize.md R100). -/
abbrev Result := BitVec 64

end Sys2Proof
end

