-- ==== Sys2Proof/Config.lean ====
section
/-! DEFINITION. What is fixed when an instance is built (00_scope.md R7 to R11), and the model's free value. -/

namespace Sys2Proof

/-- The two legal word widths; no other width can be written down (00_scope.md R7, R11). -/
inductive Width where
  | w32
  | w64
  deriving DecidableEq, Repr

/-- The byte order in which a chunk is read as an integer (00_scope.md R9). -/
inductive Endian where
  | le
  | be
  deriving DecidableEq, Repr

/-- The parameters of an instance `RXM-W<W>-<E>` (00_scope.md R3). `k32` is the open parameter `K32` of R8;
`K64` is fixed and is `Machine.K64`. -/
structure Config where
  width  : Width
  endian : Endian
  k32    : BitVec 32
  deriving DecidableEq, Repr

/-- `W`, the word width in bits (00_scope.md R7). -/
def Config.W (c : Config) : Nat :=
  match c.width with
  | .w32 => 32
  | .w64 => 64

/-- `WB`, the bytes in a word (00_scope.md R10). -/
def Config.WB (c : Config) : Nat :=
  match c.width with
  | .w32 => 4
  | .w64 => 8

/-- `NW`, the command words that carry one `W`-bit operand (00_scope.md R10). -/
def Config.NW (c : Config) : Nat :=
  match c.width with
  | .w32 => 1
  | .w64 => 2

/-- A legal configuration: `K32` must be odd (00_scope.md R8, 92_eei_decisions.md D2). -/
def Config.wf (c : Config) : Bool := c.k32.getLsbD 0

/-- Building a configuration, or refusing to: any width but 32 and 64 and any even `K32` is refused here,
and is never a run-time fault (00_scope.md R11, 60_exceptions.md R136). -/
def Config.build (w : Nat) (e : Endian) (k32 : BitVec 32) : Option Config :=
  if k32.getLsbD 0 then
    if w = 32 then some ⟨.w32, e, k32⟩
    else if w = 64 then some ⟨.w64, e, k32⟩
    else none
  else none

/-- The configuration string (00_scope.md R3). -/
def Config.name (c : Config) : String :=
  "RXM-W" ++ (match c.width with | .w32 => "32" | .w64 => "64")
    ++ "-" ++ (match c.endian with | .le => "LE" | .be => "BE")

/-- The default of the open parameter `K32` (00_scope.md R8; general knowledge in the spec's own words,
log entry 9). -/
def Config.defaultK32 : BitVec 32 := 0x9e3779b9

/-- DESIGN CHOICE (log entry 1): the instance `RXM-W64-LE`, with the default `K32`, which `State.reset` shows.
The spec leaves `W` and `ENDIAN` open; every statement about a step ranges over all configurations. -/
def Config.chosen : Config := ⟨.w64, .le, Config.defaultK32⟩

/-- FREE VALUE (log entry 5): the value of `H` in the faulted state, which the spec leaves unspecified
(60_exceptions.md R126, 93_implementation_defined.md U5). It has no body, so no proof can see a value of it. -/
opaque Config.freeH : Nat → Word

end Sys2Proof
end

