-- ==== Sys2Proof/Machine/Operands.lean ====
section
/-! DEFINITION. `W`-bit values, and byte lists read as integers (00_scope.md R13 to R16, 41_consume.md R91). -/

namespace Sys2Proof.Machine

/-- The low `W` bits of a value, zero-extended. -/
def wrap (c : Config) (v : Word) : Word :=
  match c.width with
  | .w32 => (v.setWidth 32).setWidth 64
  | .w64 => v

/-- `le(c)`: the first byte least significant (00_scope.md R16). -/
def leNat : List Byte → Nat
  | [] => 0
  | b :: bs => b.toNat + 2 ^ 8 * leNat bs

/-- `be(c)`: the first byte most significant (00_scope.md R16). -/
def beNat (bs : List Byte) : Nat := leNat bs.reverse

/-- `ne(c)`: the native byte order of the instance (00_scope.md R16, 20_memory.md R41). -/
def neNat (c : Config) (bs : List Byte) : Nat :=
  match c.endian with
  | .le => leNat bs
  | .be => beNat bs

/-- `cval(c) = zext_W(ne(c))`: the chunk value, zero-extended (41_consume.md R91). -/
def cval (c : Config) (bs : List Byte) : Word := BitVec.ofNat 64 (neNat c bs)

end Sys2Proof.Machine
end

