-- ==== Sys2Proof/Machine/Mixer.lean ====
section
/-! DEFINITION. The mixer: the constant `K`, rotation, wrapping multiplication and the mixing step
(00_scope.md R8, R15; 40_mix.md R80), and the step's inverse (43_properties.md R110). -/

namespace Sys2Proof.Machine

/-- The mixing constant for `W = 64` (00_scope.md R8). -/
def K64 : BitVec 64 := 0x517cc1b727220a95

/-- `ROT`, the rotate amount, for both widths (00_scope.md R10). -/
def rotAmount : Nat := 5

/-- `((rotl(h, 5) XOR v) * k) mod 2^W` at width `w` (40_mix.md R80): the old state is rotated, the value is
XORed in at full width, the result is multiplied. -/
def mixAt (w : Nat) (k h v : BitVec w) : BitVec w := (h.rotateLeft rotAmount ^^^ v) * k

/-- `mix(h, v)` of an instance (40_mix.md R80). -/
def mix (c : Config) (h v : Word) : Word :=
  match c.width with
  | .w32 => (mixAt 32 c.k32 (h.setWidth 32) (v.setWidth 32)).setWidth 64
  | .w64 => mixAt 64 K64 h v

/-- `K` of an instance (00_scope.md R8). -/
def kOf (c : Config) : Word :=
  match c.width with
  | .w32 => c.k32.setWidth 64
  | .w64 => K64

/-- `rotl(a, 5)` of an instance (00_scope.md R15). -/
def rotl5 (c : Config) (a : Word) : Word :=
  match c.width with
  | .w32 => ((a.setWidth 32).rotateLeft rotAmount).setWidth 64
  | .w64 => a.rotateLeft rotAmount

/-- `mulw(a, b) = (a * b) mod 2^W` (00_scope.md R15). -/
def mulw (c : Config) (a b : Word) : Word := wrap c (a * b)

/-- `KINV64`, the inverse of `K64` modulo `2^64` (43_properties.md R110). -/
def KINV64 : BitVec 64 := 0x2040003d780970bd

/-- `KINV32`, the inverse of the default `K32` modulo `2^32` (43_properties.md R110). -/
def KINV32 : BitVec 32 := 0x144cbc89

end Sys2Proof.Machine
end

