-- ==== Sys2Proof/Syntax.lean ====
section
/-! DEFINITION. The commands of the block, the rows of its opcode map and the assembler's source lines. -/

namespace Sys2Proof

/-- The five commands (30_encoding.md R64), one constructor per row of opcode_table.json. Operands are
`W`-bit unsigned values. -/
inductive Instr where
  /-- `INIT` (40_mix.md R81). -/
  | init
  /-- `MIXW val` (40_mix.md R82). -/
  | mixw (val : Word)
  /-- `CONS addr, len` (41_consume.md R92). -/
  | cons (addr len : Word)
  /-- `FIN` (42_finalize.md R100). -/
  | fin
  /-- `LDH val` (40_mix.md R83). -/
  | ldh (val : Word)
  deriving DecidableEq, Repr

/-- The operation codes of 30_encoding.md R64, without their operands. -/
inductive Op where
  | init
  | mixw
  | cons
  | fin
  | ldh
  deriving DecidableEq, Repr

/-- The three command formats (30_encoding.md R61). -/
inductive Format where
  | z
  | v
  | s
  deriving DecidableEq, Repr

/-- One row of the opcode map (30_encoding.md R64): a head word selects it when
`(head AND mask) = matchWord`. -/
structure OpcodeRow where
  op        : Op
  format    : Format
  matchWord : CmdWord
  mask      : CmdWord
  deriving DecidableEq, Repr

/-- What a list of received command words says (30_encoding.md R66). -/
inductive Decoded where
  /-- The words begin with a whole command; `rest` follows it. -/
  | instr (i : Instr) (rest : List CmdWord)
  /-- The words are the beginning of a command; `k` more words complete it (or, at a head, settle its length). -/
  | more (k : Nat)
  /-- The head word `w` selects no command (30_encoding.md R65). -/
  | illegal (w : CmdWord)
  deriving DecidableEq, Repr

/-- The source lines of the assembler (30_encoding.md R68, R69): the five commands, the three
pseudo-commands and the directive. Operands are numbers, not yet checked against `W`. -/
inductive Source where
  | init
  | mixw (val : Nat)
  | cons (addr len : Nat)
  | fin
  | ldh (val : Nat)
  | hash (addr len : Nat)
  | nop
  | peek
  | width (w : Nat)
  | blank
  deriving DecidableEq, Repr

/-- One line of a disassembly (30_encoding.md R70). -/
inductive Listing where
  | command (i : Instr)
  | illegal (w : CmdWord)
  deriving DecidableEq, Repr

end Sys2Proof
end

