-- ==== Sys2Proof/WellFormed.lean ====
section
/-! DEFINITION. Which instructions an instance's encoding can carry: operands of at most `W` bits. -/

namespace Sys2Proof

/-- `0 <= v < 2^W` (30_encoding.md R68). -/
def Config.fits (c : Config) (v : Word) : Bool := decide (v.toNat < 2 ^ c.W)

/-- An instruction an instance of configuration `c` can be sent: each operand is in the range of
30_encoding.md R68. -/
def Instr.wf (c : Config) : Instr → Bool
  | .init => true
  | .mixw val => c.fits val
  | .cons addr len => c.fits addr && c.fits len
  | .fin => true
  | .ldh val => c.fits val

end Sys2Proof
end

