-- ==== Sys2Proof/Decode.lean ====
section
/-! DEFINITION. The decoder of command words, total on any list, and after it the encoder
(30_encoding.md R60 to R66). -/

namespace Sys2Proof

/-- The opcode map of 30_encoding.md R64. -/
def opcodeMap : List OpcodeRow :=
  [ ⟨.init, .z, 0x00000001, 0xffffffff⟩,
    ⟨.mixw, .v, 0x00000002, 0xffffffff⟩,
    ⟨.cons, .s, 0x00000003, 0xffffffff⟩,
    ⟨.fin,  .z, 0x00000004, 0xffffffff⟩,
    ⟨.ldh,  .v, 0x00000005, 0xffffffff⟩ ]

/-- The command a head word selects; `none` for an illegal head word (30_encoding.md R64, R65). -/
def opOfHead (w : CmdWord) : Option Op :=
  (opcodeMap.find? fun r => w &&& r.mask == r.matchWord).map (·.op)

/-- The format of a command (30_encoding.md R61). -/
def Op.format : Op → Format
  | .init => .z
  | .mixw => .v
  | .cons => .s
  | .fin => .z
  | .ldh => .v

/-- How many operand words follow the head word; it depends on the head and on `NW` alone
(30_encoding.md R61). -/
def Op.operandWords (c : Config) (op : Op) : Nat :=
  match op.format with
  | .z => 0
  | .v => c.NW
  | .s => 2 * c.NW

/-- Operand assembly, least significant word first (30_encoding.md R62). -/
def joinWords : List CmdWord → Word
  | [] => 0
  | w :: ws => w.setWidth 64 ||| (joinWords ws <<< 32)

/-- The command made of a head and its operand words; for format `S` the address words come first
(30_encoding.md R62). -/
def Op.build (c : Config) (op : Op) (ws : List CmdWord) : Instr :=
  match op with
  | .init => .init
  | .mixw => .mixw (joinWords ws)
  | .cons => .cons (joinWords (ws.take c.NW)) (joinWords (ws.drop c.NW))
  | .fin => .fin
  | .ldh => .ldh (joinWords ws)

/-- The decoder (30_encoding.md R66), total on any list of command words whose first is a head word. -/
def decode (c : Config) : List CmdWord → Decoded
  | [] => .more 1
  | head :: ws =>
    match opOfHead head with
    | none => .illegal head
    | some op =>
      let k := op.operandWords c
      if ws.length < k then .more (k - ws.length)
      else .instr (op.build c (ws.take k)) (ws.drop k)

/-- The operation code of a command. -/
def Instr.op : Instr → Op
  | .init => .init
  | .mixw _ => .mixw
  | .cons _ _ => .cons
  | .fin => .fin
  | .ldh _ => .ldh

/-- The head word of a command (30_encoding.md R64). -/
def Op.head : Op → CmdWord
  | .init => 0x00000001
  | .mixw => 0x00000002
  | .cons => 0x00000003
  | .fin => 0x00000004
  | .ldh => 0x00000005

/-- The `NW` operand words of a `W`-bit operand, least significant first (30_encoding.md R62). -/
def splitWords (c : Config) (v : Word) : List CmdWord :=
  match c.width with
  | .w32 => [v.setWidth 32]
  | .w64 => [v.setWidth 32, (v >>> 32).setWidth 32]

/-- The operand words of a command (30_encoding.md R61, R62). -/
def Instr.operands (c : Config) : Instr → List CmdWord
  | .init => []
  | .mixw val => splitWords c val
  | .cons addr len => splitWords c addr ++ splitWords c len
  | .fin => []
  | .ldh val => splitWords c val

/-- The encoder: the head word, then the operand words (30_encoding.md R60, R61). -/
def encode (c : Config) (i : Instr) : List CmdWord := i.op.head :: i.operands c

/-- The length of a command in words (30_encoding.md R61). -/
def Instr.length (c : Config) (i : Instr) : Nat := 1 + i.op.operandWords c

/-- The length of the longest command, `CONS`, in words: 3 or 5 (30_encoding.md R61). -/
def maxWords (c : Config) : Nat := 1 + 2 * c.NW

/-- The command words of an instruction numbered as opcode_table.json numbers its bits: word `k` is bits
`32k+31 .. 32k` of `w`; every bit above `nbits` is 0; as many words as the longest command has. -/
def tableWords (c : Config) (nbits w : Nat) : List CmdWord :=
  (List.range (maxWords c)).map fun k => BitVec.ofNat 32 ((w % 2 ^ nbits) >>> (32 * k))

/-- The instruction the decoder reads from an instruction of opcode_table.json, on an instance of
configuration `c`. -/
def decodeTableWordFor (c : Config) (nbits w : Nat) : Option Instr :=
  match decode c (tableWords c nbits w) with
  | .instr i _ => some i
  | .more _ => none
  | .illegal _ => none

/-- `decodeTableWordFor` on the instance that `State.reset` shows (log entry 1). -/
def decodeTableWord (nbits w : Nat) : Option Instr := decodeTableWordFor Config.chosen nbits w

end Sys2Proof
end

