-- ==== Sys2Proof/Machine/State.lean ====
section
/-! DEFINITION. The state of the block and of the run around it, the reasons a step can stop, and reset. -/

namespace Sys2Proof.Machine

/-- `CAUSE`: a type of exactly four values (10_state.md R24, 60_exceptions.md R121,
93_implementation_defined.md U10). -/
inductive Cause where
  | noFault
  | illegalCommand
  | sliceWrap
  | memFault
  deriving DecidableEq, Repr

/-- Slice progress `(PTR, REM)` of a `CONS` being executed (10_state.md R27): the address of the next unread
byte and the count of bytes still to read, `W` bits each. -/
structure Slice where
  ptr : Word
  rem : Word
  deriving DecidableEq, Repr

/-- A read request on the `MEM` port (70_reset_and_hazards.md R149): an address and a byte count. -/
structure ReadReq where
  addr : Word
  n    : Nat
  deriving DecidableEq, Repr

/-- The slice memory's listed bytes, in the canonical form of `Memory.wf`. -/
abbrev Memory := List Host.Cell

/-- The state of one instance and of the run around it. -/
structure State where
  /-- The instance's parameters (00_scope.md R7 to R9). No step and no reset changes them (10_state.md R21). -/
  cfg    : Config
  /-- `H` (10_state.md R20), read and written through `getH` and `setH`. -/
  h      : Word
  /-- `ERR` (10_state.md R24). -/
  err    : Bool
  /-- `CAUSE` (10_state.md R24). -/
  cause  : Cause
  /-- `RES`, oldest result first (10_state.md R25). -/
  res    : List Result
  /-- The results the host has taken from `RES` since reset, oldest first (10_state.md R25, 70_reset_and_hazards.md
  R148; log entry 19). -/
  taken  : List Result
  /-- `CB`, the words of the command being received (10_state.md R26). -/
  cb     : List CmdWord
  /-- `(PTR, REM)`, `none` when no `CONS` is in progress (10_state.md R27). -/
  slice  : Option Slice
  /-- The command words the host has sent on `CMD` since reset (10_state.md R23, 70_reset_and_hazards.md R148). -/
  prog   : List CmdWord
  /-- `ci`: the index in `prog` of the first word of the current command (10_state.md R23). -/
  ci     : Nat
  /-- `M`, the contents of the slice memory, the host's (20_memory.md R40). -/
  mem    : Memory
  /-- The addresses that answer `error` at present, which the host may change between two steps (20_memory.md R53,
  70_reset_and_hazards.md R148, R149; log entry 18). -/
  memErr : List Nat
  /-- The addresses whose reads have side effects, outside the spec (20_memory.md R44, U7; log entry 3). -/
  memDev : List Nat
  /-- The read requests made on the `MEM` port since reset, oldest first (60_exceptions.md R134; log entry 4). -/
  reads  : List ReadReq
  /-- The model's own: how many free values have been drawn (log entry 5). -/
  free   : Nat
  deriving DecidableEq, Repr

/-- Reasons for which a step ends in a fault outcome: none. The block's three faults (60_exceptions.md R121)
are taken as the spec describes their entry (R125), in a next state with `ERR = 1`; a block that waits for a
word keeps its state (70_reset_and_hazards.md R150). So this type is empty, and no step can end so: safe. -/
inductive Fault where
  deriving DecidableEq, Repr

/-- Reasons for which a step has no meaning. -/
inductive Refusal where
  /-- Raised by a refused arm of `exec`, for an instruction with no meaning yet. Safe: the model stops. -/
  | notModelled (mnemonic : String)
  /-- Raised by `CONS` when its slice holds an address whose reads have side effects: the spec gives that no
  meaning and has a model refuse it (20_memory.md R44, 93_implementation_defined.md U7). Safe: the model stops. -/
  | sideEffectSlice
  deriving DecidableEq, Repr

/-- The reset state of an instance of configuration `c`, with no word sent and no memory listed
(10_state.md R30, 70_reset_and_hazards.md R140). -/
def State.resetFor (c : Config) : State :=
  { cfg := c, h := 0, err := false, cause := .noFault, res := [], taken := [], cb := [], slice := none,
    prog := [], ci := 0, mem := [], memErr := [], memDev := [], reads := [], free := 0 }

/-- The machine right after reset, shown on the instance `Config.chosen` (log entry 1). -/
def State.reset : State := State.resetFor Config.chosen

end Sys2Proof.Machine
end

