-- ==== Sys2Proof/Machine/Feeder.lean ====
section
/-! DEFINITION. The feeder as pure functions: peeling, chunks, the fold, the hash and the split condition
(41_consume.md R90 to R94, 43_properties.md R104, R108). -/

namespace Sys2Proof.Machine

/-- The sub-word chunk widths of `r` remaining bytes, `r < 8`: the three tests made once, in the order
4, 2, 1 (41_consume.md R90). -/
def tailWidths (r : Nat) : List Nat :=
  (if r.testBit 2 then [4] else []) ++ (if r.testBit 1 then [2] else [])
    ++ (if r.testBit 0 then [1] else [])

/-- `peel(n)`: the chunk widths of a slice of `n` bytes, in the order taken (41_consume.md R90). -/
def peel (c : Config) (n : Nat) : List Nat :=
  List.replicate (n / c.WB) c.WB ++ tailWidths (n % c.WB)

/-- A byte list cut into consecutive chunks of the given widths, from the front (41_consume.md R90). -/
def cut : List Nat → List Byte → List (List Byte)
  | [], _ => []
  | m :: ms, bs => bs.take m :: cut ms (bs.drop m)

/-- The chunk values of a byte sequence, in the order mixed (41_consume.md R91, R92). -/
def chunkValues (c : Config) (bs : List Byte) : List Word :=
  (cut (peel c bs.length) bs).map (cval c)

/-- `fold(h, B)`, also written `consume(h, B)` (41_consume.md R92). -/
def fold (c : Config) (h : Word) (bs : List Byte) : Word :=
  (chunkValues c bs).foldl (mix c) h

/-- `hash(B) = zext_64(fold(0, B))` (43_properties.md R104). -/
def hashOf (c : Config) (bs : List Byte) : Result := fold c 0 bs

/-- The architectural reads of chunks of the given widths from address `p` on (20_memory.md R43, R50). -/
def readPlan (c : Config) : Word → List Nat → List ReadReq
  | _, [] => []
  | p, m :: ms => ⟨p, m⟩ :: readPlan c (wrap c (p + BitVec.ofNat 64 m)) ms

/-- `mixes(n)`, the number of mixing steps and of chunk reads of a slice of `n` bytes (41_consume.md R94). -/
def mixes (c : Config) (n : Nat) : Nat := (peel c n).length

/-- The number of one bits among bits 2, 1 and 0 of `r`. -/
def popcount3 (r : Nat) : Nat := r / 4 % 2 + r / 2 % 2 + r % 2

/-- The ends of consecutive chunks of the given widths, the first starting at `off`. -/
def chunkEnds : Nat → List Nat → List Nat
  | _, [] => []
  | off, m :: ms => (off + m) :: chunkEnds (off + m) ms

/-- `bnd(n)`, the boundary set of a slice of `n` bytes (43_properties.md R108). -/
def bnd (c : Config) (n : Nat) : List Nat := 0 :: chunkEnds 0 (peel c n)

/-- Consecutive chunks of the given widths as (offset, width) pairs, the first at `off`. -/
def chunkPairs : Nat → List Nat → List (Nat × Nat)
  | _, [] => []
  | off, m :: ms => (off, m) :: chunkPairs (off + m) ms

/-- The chunks, as (offset, width) pairs, of pieces of the given lengths consumed one after another
(43_properties.md R108). -/
def pieceChunks (c : Config) : Nat → List Nat → List (Nat × Nat)
  | _, [] => []
  | off, n :: ns => chunkPairs off (peel c n) ++ pieceChunks c (off + n) ns

end Sys2Proof.Machine
end

