-- ==== Sys2Proof/Machine/Flags.lean ====
section
/-! DEFINITION. The status the block drives: `ERR` and `CAUSE`. There are no arithmetic flags
(10_state.md R22, R24). -/

namespace Sys2Proof.Machine

/-- The code of a fault cause on the 4-bit output `CAUSE` (60_exceptions.md R121). -/
def Cause.code : Cause → BitVec 4
  | .noFault => 0
  | .illegalCommand => 1
  | .sliceWrap => 2
  | .memFault => 3

/-- The level output `ERR` (10_state.md R24). -/
def errPort (s : State) : BitVec 1 := if s.err then 1 else 0

/-- The level output `CAUSE` (10_state.md R24). -/
def causePort (s : State) : BitVec 4 := s.cause.code

end Sys2Proof.Machine
end

