-- ==== Sys2Proof/Machine/Memory.lean ====
section
/-! DEFINITION. Operations on the slice memory's contents. The block only reads; writing is the host's. -/

namespace Sys2Proof.Machine

/-- What an unlisted address reads as: 0, DESIGN CHOICE (log entry 2); the contents are a parameter of a run
(20_memory.md R40). -/
def unlistedByte : Byte := 0

/-- `M[a]`: the byte at address `a` (20_memory.md R40). -/
def Memory.read : Memory → Nat → Byte
  | [], _ => unlistedByte
  | (k, b) :: m, a => if a = k then b else Memory.read m a

/-- A byte put in front of a canonical list, left out when it is what an unlisted address reads as. -/
def Memory.put (a : Nat) (b : Byte) (m : Memory) : Memory :=
  if b = unlistedByte then m else (a, b) :: m

/-- The memory with byte `b` at address `a`, in canonical form: the host's move, the block never writes
(20_memory.md R54). -/
def Memory.write : Memory → Nat → Byte → Memory
  | [], a, b => Memory.put a b []
  | (k, x) :: m, a, b =>
    if a < k then Memory.put a b ((k, x) :: m)
    else if a = k then Memory.put a b m
    else (k, x) :: Memory.write m a b

/-- Every listed address is above `lo`, the addresses rise strictly, and no listed byte is the unlisted one. -/
def Memory.wfAbove : Option Nat → Memory → Bool
  | _, [] => true
  | lo, (k, b) :: m =>
    (match lo with | none => true | some l => decide (l < k)) && (b != unlistedByte)
      && Memory.wfAbove (some k) m

/-- The canonical form: addresses strictly rising, no entry equal to what an unlisted address reads as. -/
def Memory.wf (m : Memory) : Bool := Memory.wfAbove none m

/-- `Bytes(addr, len)`: the `n` bytes from address `a` on, lowest address first (20_memory.md R40). -/
def Memory.bytes (m : Memory) : (n a : Nat) → List Byte
  | 0, _ => []
  | n + 1, a => Memory.read m a :: Memory.bytes m n (a + 1)

end Sys2Proof.Machine
end

