-- ==== Sys2Proof/Machine/Ops.lean ====
section
/-! DEFINITION. The named operations over the state: `H`, the result queue, taking a fault and leaving one,
slice reads and the feeder's chunk step. -/

namespace Sys2Proof.Machine

/-- The outcome of a step of this machine. -/
abbrev StepOutcome := Host.Outcome State Fault Refusal

/-- A read of `H`: its low `W` bits (10_state.md R20). -/
def getH (s : State) : Word := wrap s.cfg s.h

/-- `H <- v`: `W` bits (10_state.md R20). -/
def setH (v : Word) (s : State) : State := { s with h := wrap s.cfg v }

/-- `RES.push(v)` (10_state.md R25). -/
def pushResult (v : Result) (s : State) : State := { s with res := s.res ++ [v] }

/-- TAKING A FAULT, as one action (60_exceptions.md R125): `ERR <- 1`, `CAUSE <- code(X)`, `CB <- []`, a `CONS`
in progress stops. Nothing is saved and `RES` is untouched. `H` is unspecified from here to the next reset
(R126, U5), so it becomes a free value (log entry 5). -/
def raise (x : Cause) (s : State) : State :=
  { s with err := true, cause := x, cb := [], slice := none,
           h := wrap s.cfg (Config.freeH s.free), free := s.free + 1 }

/-- RESET, the only way out of the faulted state (60_exceptions.md R127, 70_reset_and_hazards.md R140, R141):
every piece of the block's state takes its value of 10_state.md R30. The instance's parameters and the memory
are not the block's state, and the words the host has sent that the block has not accepted come next, the
first of them at index 0 (log entry 15). -/
def resetBlock (s : State) : State :=
  { State.resetFor s.cfg with
    prog := s.prog.drop (s.ci + s.cb.length), mem := s.mem, memErr := s.memErr, memDev := s.memDev,
    free := s.free }

/-- In the faulted state no command executes: it is discarded (60_exceptions.md R126). -/
def whenRunning (s : State) (f : State → StepOutcome) : StepOutcome :=
  if s.err then .next s else f s

/-- One byte on the `MEM` port: the byte, or `none` for the answer `error` (20_memory.md R40, R53). -/
def readByte (s : State) (a : Nat) : Option Byte :=
  if s.memErr.contains a then none else some (Memory.read s.mem a)

/-- `MemRead(a, n)`: `n` bytes, lowest address first, or `none` when any of them answers `error`
(00_scope.md R14, 20_memory.md R53). No alignment is required (20_memory.md R42). -/
def readBytes (s : State) : (n a : Nat) → Option (List Byte)
  | 0, _ => some []
  | n + 1, a =>
    match readByte s a with
    | none => none
    | some b => (readBytes s n (a + 1)).map (b :: ·)

/-- The read request as it appears on the `MEM` port (70_reset_and_hazards.md R149). -/
def logRead (p : Word) (n : Nat) (s : State) : State := { s with reads := s.reads ++ [⟨p, n⟩] }

/-- A `CONS` begins: `p = addr`, `rem = len` (41_consume.md R92). -/
def beginSlice (addr len : Word) (s : State) : State := { s with slice := some ⟨addr, len⟩ }

/-- A `CONS` is complete: the slice progress is dead (10_state.md R27). -/
def endSlice (s : State) : State := { s with slice := none }

/-- One chunk of `m` bytes (41_consume.md R92): read it, raise `MemFault` on `error`, else mix its value and
move `(PTR, REM)` on. -/
def chunkStep (m : Nat) (sl : Slice) (s : State) : State :=
  match readBytes s m sl.ptr.toNat with
  | none => raise .memFault (logRead sl.ptr m s)
  | some bs =>
    { setH (mix s.cfg (getH s) (cval s.cfg bs)) (logRead sl.ptr m s) with
      slice := some ⟨wrap s.cfg (sl.ptr + BitVec.ofNat 64 m), sl.rem - BitVec.ofNat 64 m⟩ }

/-- `if rem >= m` then one chunk of `m` bytes (41_consume.md R92); nothing when no `CONS` is in progress, as
after a fault (60_exceptions.md R125). -/
def tryChunk (s : State) (m : Nat) : State :=
  match s.slice with
  | none => s
  | some sl => if m ≤ sl.rem.toNat then chunkStep m sl s else s

/-- The chunk tests of 41_consume.md R92 for `n` remaining bytes: the word loop, then 4, 2 and 1 once each. -/
def chunkTests (c : Config) (n : Nat) : List Nat := List.replicate (n / c.WB) c.WB ++ [4, 2, 1]

/-- Does the slice hold an address whose reads have side effects (20_memory.md R44)? -/
def touchesDevice (s : State) (sl : Slice) : Bool :=
  s.memDev.any fun a => decide (sl.ptr.toNat ≤ a) && decide (a < sl.ptr.toNat + sl.rem.toNat)

/-- The `CONS` in progress is carried to its end (41_consume.md R92), or refused when its slice lies in memory
whose reads have side effects (93_implementation_defined.md U7; log entry 3). -/
def feedSlice (s : State) : StepOutcome :=
  match s.slice with
  | none => .next s
  | some sl =>
    if touchesDevice s sl then .refused .sideEffectSlice
    else .next (endSlice ((chunkTests s.cfg sl.rem.toNat).foldl tryChunk s))

/-- The slice runs past the top of the address space: `len > 0` and `addr + len > 2^W`, the sum taken without
wrapping (20_memory.md R46). -/
def sliceWraps (c : Config) (addr len : Word) : Bool :=
  decide (0 < len.toNat) && decide (2 ^ c.W < addr.toNat + len.toNat)

end Sys2Proof.Machine
end

