-- ==== Sys2Proof/Machine/Consume.lean ====
section
/-! DEFINITION. `CONS` (41_consume.md R92). -/

namespace Sys2Proof.Machine

/-- `CONS addr, len`: `H <- fold(H, Bytes(addr, len))`, by the pseudocode of 41_consume.md R92: `SliceWrap`
before any read, then the chunks in ascending order, `MemFault` on an `error` answer. -/
def execCons (addr len : Word) (s : State) : StepOutcome :=
  whenRunning s fun s =>
    if sliceWraps s.cfg addr len then .next (raise .sliceWrap s)
    else feedSlice (beginSlice addr len s)

end Sys2Proof.Machine
end

