-- ==== Sys2Proof/Machine/Finalize.lean ====
section
/-! DEFINITION. `FIN` (42_finalize.md R100, R101). -/

namespace Sys2Proof.Machine

/-- `FIN`: `RES.push(zext_64(H))`; `H` is not changed (42_finalize.md R100, R101). -/
def execFin (s : State) : StepOutcome :=
  whenRunning s fun s => .next (pushResult (getH s) s)

end Sys2Proof.Machine
end

