-- ==== Sys2Proof/Machine/Mix.lean ====
section
/-! DEFINITION. `INIT`, `MIXW` and `LDH`: the commands on `H` without memory (40_mix.md R81 to R83). -/

namespace Sys2Proof.Machine

/-- `INIT`: `H <- 0` (40_mix.md R81). -/
def execInit (s : State) : StepOutcome :=
  whenRunning s fun s => .next (setH 0 s)

/-- `MIXW val`: `H <- mix(H, val)` (40_mix.md R82). -/
def execMixw (val : Word) (s : State) : StepOutcome :=
  whenRunning s fun s => .next (setH (mix s.cfg (getH s) val) s)

/-- `LDH val`: `H <- val` (40_mix.md R83). -/
def execLdh (val : Word) (s : State) : StepOutcome :=
  whenRunning s fun s => .next (setH val s)

end Sys2Proof.Machine
end

