-- ==== Sys2Proof/Machine/Dispatch.lean ====
section
/-! DEFINITION. One arm per command (30_encoding.md R64). -/

namespace Sys2Proof.Machine

def exec (i : Instr) (s : State) : Host.Outcome State Fault Refusal :=
  match i with
  | .init => Sys2Proof.Machine.execInit s
  | .mixw val => Sys2Proof.Machine.execMixw val s
  | .cons addr len => Sys2Proof.Machine.execCons addr len s
  | .fin => Sys2Proof.Machine.execFin s
  | .ldh val => Sys2Proof.Machine.execLdh val s

end Sys2Proof.Machine
end

