-- ==== Sys2Proof/Machine/Port.lean ====
section
/-! DEFINITION. The command port: accepting the next word (30_encoding.md R66) and placing an instruction's
words where the next step takes them. -/

namespace Sys2Proof.Machine

/-- The next word on `CMD`: the word after the ones received of the current command (10_state.md R23, R26). -/
def nextWord (s : State) : Option CmdWord := s.prog[s.ci + s.cb.length]?

/-- The command's last word has been accepted: `ci` moves on by the command's length and `CB` is empty
(10_state.md R23, 30_encoding.md R66). -/
def advance (s : State) : State := { s with ci := s.ci + s.cb.length + 1, cb := [] }

/-- A command word accepted while `ERR = 1` is discarded without being decoded (60_exceptions.md R126). -/
def discard (s : State) : State := { s with ci := s.ci + 1 }

/-- A command word accepted while `ERR = 0` (30_encoding.md R66): it completes a command, which executes; or
more operand words are to be collected; or it is an illegal head word (60_exceptions.md R122). -/
def acceptWord (w : CmdWord) (s : State) : StepOutcome :=
  match decode s.cfg (s.cb ++ [w]) with
  | .illegal _ => .next (raise .illegalCommand (advance s))
  | .more _ => .next { s with cb := s.cb ++ [w] }
  | .instr i _ => exec i (advance s)

/-- One transaction of the block. Faulted: a word is discarded. A `CONS` in progress is carried to its end
before any word is accepted (70_reset_and_hazards.md R145; log entry 10). Else the next word is accepted. With no word
offered the block keeps its state: idle at a head, waiting inside a command (60_exceptions.md R135,
70_reset_and_hazards.md R150; log entry 7). -/
def transact (s : State) : StepOutcome :=
  if s.err then
    match nextWord s with
    | none => .next s
    | some _ => .next (discard s)
  else
    match s.slice with
    | some _ => feedSlice s
    | none =>
      match nextWord s with
      | none => .next s
      | some w => acceptWord w s

/-- How many words the command at the head of `ws` has; 1 when its head word is illegal. -/
def commandWords (c : Config) : List CmdWord → Nat
  | [] => 1
  | w :: _ =>
    match opOfHead w with
    | none => 1
    | some op => 1 + op.operandWords c

/-- The words `ws` stand on the command port from index `ci` on, and all but the last word of the command at
their head are already received, so that the next step accepts its last word and runs it (log entry 8). -/
def placeWords (ws : List CmdWord) (s : State) : State :=
  { s with
    prog := s.prog.take s.ci ++ List.replicate (s.ci - s.prog.length) 0 ++ ws ++ s.prog.drop (s.ci + ws.length),
    cb := ws.take (commandWords s.cfg ws - 1), err := false, cause := .noFault, slice := none }

end Sys2Proof.Machine
end

