-- ==== Sys2Proof/Machine/Step.lean ====
section
/-! DEFINITION. The step, and an instruction placed where the step fetches its next one. -/

namespace Sys2Proof.Machine

/-- One step of the block: one transaction of the command port (30_encoding.md R66). -/
def step (s : State) : Host.Outcome State Fault Refusal := transact s

/-- `s` with the instruction numbered `w` by opcode_table.json as the next one the step runs. -/
def State.withFetchWord (s : State) (nbits w : Nat) : State :=
  placeWords (tableWords s.cfg nbits w) s

end Sys2Proof.Machine
end

