-- ==== Sys2Proof/Machine/Assembler.lean ====
section
/-! DEFINITION. The assembler's syntax and pseudo-commands, and disassembly (30_encoding.md R68, R69, R70).
Text is a list of characters, so that the kernel can evaluate it (log entry 16). -/

namespace Sys2Proof.Machine

/-- The commands a source line stands for, with unchecked operands: the pseudo-commands are expanded
(30_encoding.md R69); a directive and an empty line stand for none. -/
def expand : Source → List Source
  | .init => [.init]
  | .mixw v => [.mixw v]
  | .cons a n => [.cons a n]
  | .fin => [.fin]
  | .ldh v => [.ldh v]
  | .hash a n => [.init, .cons a n, .fin]
  | .nop => [.cons 0 0]
  | .peek => [.fin]
  | .width _ => []
  | .blank => []

/-- An operand as a `W`-bit value, or an assembler error when it is outside its range: nothing is truncated
(30_encoding.md R68). -/
def operandOf (c : Config) (v : Nat) : Option Word :=
  if v < 2 ^ c.W then some (BitVec.ofNat 64 v) else none

/-- The instruction of an expanded source line (30_encoding.md R68); pseudo-commands have been expanded, so
they are none here. -/
def instrOf (c : Config) : Source → Option Instr
  | .init => some .init
  | .mixw v => (operandOf c v).map .mixw
  | .cons a n =>
    match operandOf c a, operandOf c n with
    | some a', some n' => some (.cons a' n')
    | _, _ => none
  | .fin => some .fin
  | .ldh v => (operandOf c v).map .ldh
  | .hash _ _ => none
  | .nop => none
  | .peek => none
  | .width _ => none
  | .blank => none

/-- The command words of a list of expanded source lines, or an assembler error. -/
def encodeAll (c : Config) : List Source → Option (List CmdWord)
  | [] => some []
  | x :: xs =>
    match instrOf c x, encodeAll c xs with
    | some i, some ws => some (encode c i ++ ws)
    | _, _ => none

/-- The words of one source line, or an assembler error (30_encoding.md R68, R69). A `.width` directive must
state the width the instance has. -/
def assembleLine (c : Config) (x : Source) : Option (List CmdWord) :=
  match x with
  | .width w => if w = c.W then some [] else none
  | .init => encodeAll c (expand x)
  | .mixw _ => encodeAll c (expand x)
  | .cons _ _ => encodeAll c (expand x)
  | .fin => encodeAll c (expand x)
  | .ldh _ => encodeAll c (expand x)
  | .hash _ _ => encodeAll c (expand x)
  | .nop => encodeAll c (expand x)
  | .peek => encodeAll c (expand x)
  | .blank => some []

/-- The words of a program's source lines, in order, or an assembler error. -/
def assemble (c : Config) : List Source → Option (List CmdWord)
  | [] => some []
  | x :: xs =>
    match assembleLine c x, assemble c xs with
    | some ws, some rest => some (ws ++ rest)
    | _, _ => none

/-- A digit of a hexadecimal number, either case. -/
def hexDigit (ch : Char) : Option Nat :=
  let n := ch.toNat
  if 48 ≤ n ∧ n ≤ 57 then some (n - 48)
  else if 97 ≤ n ∧ n ≤ 102 then some (n - 87)
  else if 65 ≤ n ∧ n ≤ 70 then some (n - 55)
  else none

/-- A number in base `b`, most significant digit first, on top of `acc`. -/
def digitsValue (b : Nat) : Nat → List Char → Option Nat
  | acc, [] => some acc
  | acc, ch :: cs =>
    match hexDigit ch with
    | none => none
    | some d => if d < b then digitsValue b (acc * b + d) cs else none

/-- An unsigned integer in decimal or in hexadecimal after `0x` (30_encoding.md R68). -/
def parseNumber : List Char → Option Nat
  | [] => none
  | ['0', 'x'] => none
  | '0' :: 'x' :: ch :: cs => digitsValue 16 0 (ch :: cs)
  | ch :: cs => digitsValue 10 0 (ch :: cs)

/-- White space between the parts of a line. -/
def isBlankChar (ch : Char) : Bool := ch == ' ' || ch == '\t' || ch == '\r'

/-- A text without the white space at its two ends. -/
def trimChars (cs : List Char) : List Char :=
  ((cs.dropWhile isBlankChar).reverse.dropWhile isBlankChar).reverse

/-- A letter in lower case: mnemonics are not case sensitive (30_encoding.md R68). -/
def lowerChar (ch : Char) : Char :=
  if 65 ≤ ch.toNat ∧ ch.toNat ≤ 90 then Char.ofNat (ch.toNat + 32) else ch

/-- A text cut at each comma. -/
def splitCommas : List Char → List (List Char)
  | [] => [[]]
  | ch :: cs =>
    match splitCommas cs with
    | [] => [[ch]]
    | x :: xs => if ch == ',' then [] :: x :: xs else (ch :: x) :: xs

/-- The operands after a mnemonic, each a number; an error when one is not. -/
def parseOperands (cs : List Char) : Option (List Nat) :=
  if (trimChars cs).isEmpty then some []
  else (splitCommas cs).foldr
    (fun x acc =>
      match parseNumber (trimChars x), acc with
      | some v, some vs => some (v :: vs)
      | _, _ => none)
    (some [])

/-- The source line of a mnemonic and its operands; an error when the mnemonic or the number of operands is
not one of 30_encoding.md R68 and R69. -/
def sourceOf (name : List Char) (ops : List Nat) : Option Source :=
  match name, ops with
  | ['i', 'n', 'i', 't'], [] => some .init
  | ['m', 'i', 'x', 'w'], [v] => some (.mixw v)
  | ['c', 'o', 'n', 's'], [a, n] => some (.cons a n)
  | ['f', 'i', 'n'], [] => some .fin
  | ['l', 'd', 'h'], [v] => some (.ldh v)
  | ['h', 'a', 's', 'h'], [a, n] => some (.hash a n)
  | ['n', 'o', 'p'], [] => some .nop
  | ['p', 'e', 'e', 'k'], [] => some .peek
  | ['.', 'w', 'i', 'd', 't', 'h'], [w] => some (.width w)
  | _, _ => none

/-- One line of assembler text (30_encoding.md R68): a comment starts at `;` and runs to the end of the line. -/
def parseLine (cs : List Char) : Option Source :=
  let body := trimChars (cs.takeWhile (· != ';'))
  if body.isEmpty then some .blank
  else
    let name := (body.takeWhile (fun ch => !isBlankChar ch)).map lowerChar
    match parseOperands (body.dropWhile (fun ch => !isBlankChar ch)) with
    | none => none
    | some ops => sourceOf name ops

/-- Disassembly from a head position (30_encoding.md R70): one line per command; after an illegal head word
nothing follows; the words of a command whose end is missing make no line. `fuel` bounds the number of lines. -/
def disassembleFuel (c : Config) : Nat → List CmdWord → List Listing
  | 0, _ => []
  | fuel + 1, ws =>
    match decode c ws with
    | .illegal w => [.illegal w]
    | .more _ => []
    | .instr i rest => .command i :: disassembleFuel c fuel rest

/-- Disassembly of a whole stream from a head position (30_encoding.md R70). -/
def disassemble (c : Config) (ws : List CmdWord) : List Listing := disassembleFuel c ws.length ws

/-- One hexadecimal digit. -/
def hexChar (n : Nat) : Char := Char.ofNat (if n < 10 then 48 + n else 87 + n)

/-- `k` hexadecimal digits of `n`, most significant first. -/
def hexDigits : Nat → Nat → List Char
  | 0, _ => []
  | k + 1, n => hexChar (n / 16 ^ k % 16) :: hexDigits k n

/-- An operand as the listing prints it: `0x` and the digits of a `W`-bit value. -/
def operandText (c : Config) (v : Word) : String :=
  "0x" ++ String.ofList (hexDigits (2 * c.WB) v.toNat)

/-- A listing line in the syntax of 30_encoding.md R68, an illegal head word as R70 has it. -/
def listingText (c : Config) : Listing → String
  | .command .init => "init"
  | .command (.mixw v) => "mixw " ++ operandText c v
  | .command (.cons a n) => "cons " ++ operandText c a ++ ", " ++ operandText c n
  | .command .fin => "fin"
  | .command (.ldh v) => "ldh " ++ operandText c v
  | .illegal w => ".illegal 0x" ++ String.ofList (hexDigits 8 w.toNat)

end Sys2Proof.Machine
end

