-- ==== Sys2Proof/Machine/HostMoves.lean ====
section
/-! DEFINITION. What the host may do to one instance, between two steps (70_reset_and_hazards.md R148, R149).
A step never calls these. There is no move inside a `CONS`: each command is atomic (R145), and a slice that
changes while its `CONS` runs is a host breaking its duty (R143; log entry 12). -/

namespace Sys2Proof.Machine

/-- The host sends command words on `CMD`; none is lost (70_reset_and_hazards.md R149). -/
def sendWords (ws : List CmdWord) (s : State) : State := { s with prog := s.prog ++ ws }

/-- The host takes the oldest result from `RES`, if there is one, and has it from then on (10_state.md R25;
log entry 19). -/
def takeResult (s : State) : Option Result × State :=
  match s.res with
  | [] => (none, s)
  | r :: rs => (some r, { s with res := rs, taken := s.taken ++ [r] })

/-- The host asserts `RST` (70_reset_and_hazards.md R140, R141). -/
def assertReset (s : State) : State := resetBlock s

/-- The host, or another agent, stores a byte in the slice memory; only the host writes (20_memory.md R54). -/
def storeByte (a : Nat) (b : Byte) (s : State) : State :=
  if a < 2 ^ s.cfg.W then { s with mem := Memory.write s.mem a b } else s

/-- Reads of address `a` are answered with `error` from now on, until `serveAddress` (20_memory.md R53,
70_reset_and_hazards.md R149; log entry 18). -/
def failAddress (a : Nat) (s : State) : State :=
  if s.memErr.contains a then s else { s with memErr := a :: s.memErr }

/-- Reads of address `a` are answered with bytes from now on, until `failAddress`: the host may answer each read
either way (70_reset_and_hazards.md R149). That an address may recover at all is DESIGN CHOICE (log entry 18). -/
def serveAddress (a : Nat) (s : State) : State := { s with memErr := s.memErr.filter (· != a) }

/-- The list of all values appended to `RES` since reset, in order, whether or not the host has taken them
(10_state.md R25, 70_reset_and_hazards.md R148; log entry 19). -/
def produced (s : State) : List Result := s.taken ++ s.res

/-- The values appended to `RES` between two states of one run, in order (70_reset_and_hazards.md R148). -/
def appendedSince (start s : State) : List Result := (produced s).drop (produced start).length

/-- A program (70_reset_and_hazards.md R148): the start state is the reset state unless said otherwise. -/
structure Program where
  cfg    : Config
  words  : List CmdWord
  mem    : Memory
  memErr : List Nat
  start  : State := State.resetFor cfg
  deriving DecidableEq, Repr

/-- The state in which a program's run starts: the program's start state over its configuration and memory, with its
words as the next ones on the port (70_reset_and_hazards.md R148; log entry 19). -/
def loadProgram (p : Program) : State :=
  { p.start with cfg := p.cfg, prog := p.start.cb ++ p.words, ci := 0, mem := p.mem, memErr := p.memErr }

end Sys2Proof.Machine
end

