-- ==== Sys2Proof/Machine/Sequence.lean ====
section
/-! DEFINITION. Commands executed one after another, and the outcome of a step moved along the command stream. -/

namespace Sys2Proof.Machine

/-- The commands of a list, in order, each begun when the one before it has completed
(70_reset_and_hazards.md R145). -/
def execAll : List Instr → State → StepOutcome
  | [], s => .next s
  | i :: is, s =>
    match exec i s with
    | .next t => execAll is t
    | .fault r => .fault r
    | .refused r => .refused r

/-- The state with `ci` at `k`. -/
def moveTo (k : Nat) (s : State) : State := { s with ci := k }

/-- The outcome with `ci` moved to `k`; a stop stays a stop. -/
def atIndex (k : Nat) : StepOutcome → StepOutcome
  | .next t => .next (moveTo k t)
  | .fault r => .fault r
  | .refused r => .refused r

end Sys2Proof.Machine
end

