-- ==== Sys2Proof/Machine/System.lean ====
section
/-! DEFINITION. Several instances: independent copies of the machine that share nothing
(10_state.md R29, 60_exceptions.md R133; log entry 13). -/

namespace Sys2Proof.Machine

/-- The instances of a system, each with its own command port, `H` and memory view (10_state.md R29). -/
abbrev Instances := List State

/-- Instance `k` makes a step; a number that names no instance changes nothing. -/
def stepInstance (k : Nat) (ss : Instances) : Host.Outcome Instances Fault Refusal :=
  match ss[k]? with
  | none => .next ss
  | some s =>
    match step s with
    | .next t => .next (ss.set k t)
    | .fault r => .fault r
    | .refused r => .refused r

/-- The host copies accumulator `x` to accumulator `y`: `FIN` on the source, `LDH` of the result's low `W` bits on
the destination (10_state.md R29, 40_mix.md R83). It answers the two states after the commands. DESIGN CHOICE
(log entry 13), on two points the spec leaves open. Between instances of different widths `W` is the destination's,
the only width its `LDH` can carry: a 32-bit destination gets the low half of a 64-bit `H`, a 64-bit one the
zero-extended 32-bit `H`. Where the `FIN` delivers nothing, as on a faulted source (60_exceptions.md R126), there is
no copy: `none`. -/
def copyAccumulator (x y : State) : Option (State × State) :=
  match exec .fin x with
  | .next x' =>
    match x'.res.drop x.res.length with
    | [] => none
    | r :: _ =>
      match exec (.ldh (wrap y.cfg r)) y with
      | .next y' => some (x', y')
      | .fault _ => none
      | .refused _ => none
  | .fault _ => none
  | .refused _ => none

end Sys2Proof.Machine
end

