-- ==== Sys2Proof/Safety.lean ====
section
/-! DEFINITION. The invariant of the block, and how a run ends (10_state.md R31, 70_reset_and_hazards.md R148,
R150). -/

namespace Sys2Proof.Machine

/-- What holds after reset and after every step (10_state.md R31), with the canonical form of the memory, the
form of a partly received command (R26) and the shape of the reads made (20_memory.md R40, R43). -/
structure Inv (s : State) : Prop where
  /-- The instance has a legal configuration (00_scope.md R8). -/
  cfg_wf : s.cfg.wf = true
  /-- `0 <= H < 2^W` (10_state.md R31). -/
  h_lt : s.h.toNat < 2 ^ s.cfg.W
  /-- `ERR = 0` if and only if `CAUSE = 0` (10_state.md R24, R31). -/
  err_iff_cause : s.err = false ↔ s.cause = .noFault
  /-- Every element of `RES` is below `2^W` (10_state.md R31). -/
  res_lt : ∀ r ∈ s.res, r.toNat < 2 ^ s.cfg.W
  /-- So is every result the host has taken (10_state.md R31). -/
  taken_lt : ∀ r ∈ s.taken, r.toNat < 2 ^ s.cfg.W
  /-- `CB` holds a proper beginning of a command (10_state.md R26). -/
  cb_more : ∃ k, 0 < k ∧ decode s.cfg s.cb = .more k
  /-- A faulted block holds no words (60_exceptions.md R125, R126). -/
  cb_faulted : s.err = true → s.cb = []
  /-- The words received so far are words the host has sent (10_state.md R23, 70_reset_and_hazards.md R149). -/
  pos_le : s.ci + s.cb.length ≤ s.prog.length
  /-- No `CONS` is in progress between two steps (10_state.md R27, 70_reset_and_hazards.md R145). -/
  slice_none : s.slice = none
  /-- The memory is in canonical form. -/
  mem_wf : Memory.wf s.mem = true
  /-- The memory lists addresses of the address space only (20_memory.md R40). -/
  mem_lt : ∀ x ∈ s.mem, x.1 < 2 ^ s.cfg.W
  /-- Every read request is of 1, 2, 4 or 8 bytes, of at most a word, inside the address space
  (20_memory.md R40, R46). -/
  reads_ok : ∀ r ∈ s.reads, r.n ∈ [1, 2, 4, 8] ∧ r.n ≤ s.cfg.WB ∧ r.addr.toNat + r.n ≤ 2 ^ s.cfg.W

/-- Every byte of the slice is answered with a byte, not with `error` (20_memory.md R53, 60_exceptions.md R120). -/
def SliceReadable (s : State) (addr len : Word) : Prop :=
  ∀ a, addr.toNat ≤ a → a < addr.toNat + len.toNat → a ∉ s.memErr

/-- Every byte of the slice is ordinary memory, whose reads have no side effects (20_memory.md R44). -/
def SliceOrdinary (s : State) (addr len : Word) : Prop :=
  ∀ a, addr.toNat ≤ a → a < addr.toNat + len.toNat → a ∉ s.memDev

/-- The slice is empty or does not run past the top of the address space (20_memory.md R46). -/
def SliceInSpace (s : State) (addr len : Word) : Prop :=
  len = 0 ∨ addr.toNat + len.toNat ≤ 2 ^ s.cfg.W

/-- `Bytes(addr, len)` in state `s` (20_memory.md R40). -/
def sliceBytes (s : State) (addr len : Word) : List Byte := Memory.bytes s.mem len.toNat addr.toNat

/-- A run has ended normally: every word consumed, at a head, no fault (70_reset_and_hazards.md R148). -/
def EndedNormally (s : State) : Prop :=
  s.err = false ∧ s.slice = none ∧ s.cb = [] ∧ nextWord s = none

/-- The block waits for the rest of a command: stuck, not final, not faulted (70_reset_and_hazards.md R150). -/
def Waiting (s : State) : Prop :=
  s.err = false ∧ s.slice = none ∧ s.cb ≠ [] ∧ nextWord s = none

/-- The outcome of a run that has ended (70_reset_and_hazards.md R148): final `H` and the list of all values the run
appended to `RES`, or the cause and the list of the values appended before the fault. -/
inductive RunOutcome where
  | normal (h : Word) (res : List Result)
  | faulted (cause : Cause) (res : List Result)
  deriving DecidableEq, Repr

/-- The outcome that state `s` shows of a run begun in state `start`, whatever the host has taken meanwhile; `none`
while the run has not ended (70_reset_and_hazards.md R148, R150). -/
def outcomeOf (start s : State) : Option RunOutcome :=
  if s.err then some (.faulted s.cause (appendedSince start s))
  else if s.slice = none ∧ s.cb = [] ∧ nextWord s = none then some (.normal (getH s) (appendedSince start s))
  else none

/-- The run of a program: one step per command word, and one for a `CONS` under way in its start state, which
without one changes nothing (70_reset_and_hazards.md R148, 30_encoding.md R66). -/
def runProgram (p : Program) : Host.Outcome State Fault Refusal :=
  Host.Core.run Sys2Proof.core (p.words.length + 1) (loadProgram p)

end Sys2Proof.Machine
end

