-- ==== Sys2Proof/Certificates/Slice0/Obligations.lean ====
section
/-! DEFINITION. Statements for the provers, from the numbered rules of spec/. -/

open Sys2Proof Sys2Proof.Machine

/-! ## Reset and the whole machine -/

/-- R30, for every configuration: what reset leaves. That `State.reset` is the instance `RXM-W64-LE` is the
model's choice (log entry 1), and that no memory is listed too (log entry 2). -/
def Obligations.ResetHoldsSpecValues : Prop :=
  (∀ c : Config,
    getH (State.resetFor c) = 0 ∧ errPort (State.resetFor c) = 0 ∧ causePort (State.resetFor c) = 0 ∧
    (State.resetFor c).res = [] ∧ (State.resetFor c).cb = [] ∧ (State.resetFor c).slice = none ∧
    (State.resetFor c).ci = 0 ∧ (State.resetFor c).cfg = c) ∧
  State.reset = State.resetFor Config.chosen

/-- R140: reset, asserted in any state. -/
def Obligations.AssertResetFromAnyState : Prop :=
  ∀ s : State,
    getH (assertReset s) = 0 ∧ errPort (assertReset s) = 0 ∧ causePort (assertReset s) = 0 ∧
    (assertReset s).res = [] ∧ (assertReset s).cb = [] ∧ (assertReset s).slice = none ∧
    (assertReset s).cfg = s.cfg

/-- R31 at reset, for every legal configuration. -/
def Obligations.ResetMeetsInvariant : Prop :=
  (∀ c : Config, c.wf = true → Inv (State.resetFor c)) ∧ Inv State.reset

/-- R31: every step keeps the invariant, from every state that meets it. -/
def Obligations.StepKeepsInvariant : Prop :=
  ∀ s t : State, Inv s → step s = .next t → Inv t

/-- The host's moves keep the invariant too (R149; that an address may recover: log entry 18). -/
def Obligations.HostMovesKeepInvariant : Prop :=
  ∀ s : State, Inv s →
    (∀ ws, Inv (sendWords ws s)) ∧ Inv (takeResult s).2 ∧ Inv (assertReset s) ∧
    (∀ a b, Inv (storeByte a b s)) ∧ (∀ a, Inv (failAddress a s)) ∧ ∀ a, Inv (serveAddress a s)

/-- R120, R149: over ordinary memory (log entry 3) the block always has a next state; it never stops (log entry 7). -/
def Obligations.StepAlwaysAnswersOverOrdinaryMemory : Prop :=
  ∀ s : State, s.memDev = [] → ∃ t, step s = .next t

/-- R54: the block never writes memory, and no step changes the instance's parameters (R21). -/
def Obligations.StepNeverWritesMemory : Prop :=
  ∀ s t : State, step s = .next t →
    t.mem = s.mem ∧ (∀ a, Memory.read t.mem a = Memory.read s.mem a) ∧ t.memErr = s.memErr ∧
    t.memDev = s.memDev ∧ t.cfg = s.cfg

/-- R25, R100: a step changes `RES` only when it runs a `FIN` on a running block, and then by one value at the
tail; no step takes a result (the record of those: log entry 19). -/
def Obligations.OnlyFinAppendsResults : Prop :=
  ∀ s t : State, step s = .next t →
    t.taken = s.taken ∧
    (t.res = s.res ∨
      (t.res = s.res ++ [getH s] ∧ s.err = false ∧
        ∃ w rest, nextWord s = some w ∧ decode s.cfg (s.cb ++ [w]) = .instr .fin rest))

/-! ## Encoding -/

/-- R61, R62, R64, R66: decoding an encoded instruction gives it back, with what follows it, for every
instruction the encoding can carry and both widths. -/
def Obligations.DecodeEncodeRoundTrip : Prop :=
  ∀ (c : Config) (i : Instr) (rest : List CmdWord),
    i.wf c = true → decode c (encode c i ++ rest) = .instr i rest

/-- Each command has one encoding: the words the decoder accepts are the encoding of what it answers, and its
operands are in range. -/
def Obligations.DecodedWordsAreTheEncoding : Prop :=
  ∀ (c : Config) (ws : List CmdWord) (i : Instr) (rest : List CmdWord),
    decode c ws = .instr i rest → ws = encode c i ++ rest ∧ i.wf c = true

/-- R65: a head word is illegal exactly when it is not one of the five match values. -/
def Obligations.IllegalHeadWords : Prop :=
  ∀ (c : Config) (w : CmdWord) (ws : List CmdWord),
    (∃ x, decode c (w :: ws) = .illegal x) ↔ w ∉ ([1, 2, 3, 4, 5] : List CmdWord)

/-- R61: lengths in words, from the head word and `NW` alone. -/
def Obligations.CommandLengthFromHead : Prop :=
  (∀ (c : Config) (op : Op) (ws : List CmdWord),
    (op.operandWords c ≤ ws.length →
      ∃ i, i.op = op ∧ decode c (op.head :: ws) = .instr i (ws.drop (op.operandWords c))) ∧
    (ws.length < op.operandWords c →
      decode c (op.head :: ws) = .more (op.operandWords c - ws.length))) ∧
  (∀ (c : Config) (i : Instr), (encode c i).length = 1 + i.op.operandWords c) ∧
  (∀ c : Config, c.width = .w32 →
    1 + Op.init.operandWords c = 1 ∧ 1 + Op.fin.operandWords c = 1 ∧ 1 + Op.mixw.operandWords c = 2 ∧
    1 + Op.ldh.operandWords c = 2 ∧ 1 + Op.cons.operandWords c = 3) ∧
  (∀ c : Config, c.width = .w64 →
    1 + Op.init.operandWords c = 1 ∧ 1 + Op.fin.operandWords c = 1 ∧ 1 + Op.mixw.operandWords c = 3 ∧
    1 + Op.ldh.operandWords c = 3 ∧ 1 + Op.cons.operandWords c = 5)

/-- R62: operand words come least significant first, the address before the length, for both byte orders. -/
def Obligations.OperandAssembly : Prop :=
  ∀ (e : Endian) (k : BitVec 32) (w1 w2 w3 w4 : CmdWord),
    decode ⟨.w32, e, k⟩ [2, w1] = .instr (.mixw (w1.setWidth 64)) [] ∧
    decode ⟨.w32, e, k⟩ [5, w1] = .instr (.ldh (w1.setWidth 64)) [] ∧
    decode ⟨.w32, e, k⟩ [3, w1, w2] = .instr (.cons (w1.setWidth 64) (w2.setWidth 64)) [] ∧
    decode ⟨.w64, e, k⟩ [2, w1, w2] = .instr (.mixw (w2 ++ w1)) [] ∧
    decode ⟨.w64, e, k⟩ [5, w1, w2] = .instr (.ldh (w2 ++ w1)) [] ∧
    decode ⟨.w64, e, k⟩ [3, w1, w2, w3, w4] = .instr (.cons (w2 ++ w1) (w4 ++ w3)) []

/-- Words written out in 95_test_vectors.md sections 6.1 and 6.2, at both widths. -/
def Obligations.SpecWordsDecode : Prop :=
  ∀ (e : Endian) (k : BitVec 32),
    decode ⟨.w64, e, k⟩ [0x00000001] = .instr .init [] ∧
    decode ⟨.w64, e, k⟩ [0x00000002, 0x55667788, 0x11223344] = .instr (.mixw 0x1122334455667788) [] ∧
    decode ⟨.w64, e, k⟩ [0x00000003, 0x3456789a, 0x00000012, 0x00000001, 0x00000001] =
      .instr (.cons 0x123456789a 0x100000001) [] ∧
    decode ⟨.w64, e, k⟩ [0x00000004] = .instr .fin [] ∧
    decode ⟨.w64, e, k⟩ [0x00000005, 0xdeadbeef, 0x00000000] = .instr (.ldh 0xdeadbeef) [] ∧
    decode ⟨.w32, e, k⟩ [0x00000003, 0x00001000, 0x00000008] = .instr (.cons 0x1000 8) [] ∧
    decode ⟨.w32, e, k⟩ [0x00000104] = .illegal 0x00000104

/-! ## The command port -/

/-- R66: when the words received of a command and the next word on the port make a whole instruction, the step
runs that instruction. That it is the instruction's `exec` with `CB` emptied and `ci` moved past the command's words
first is the model's reading (log entry 10, DEDUCED): the pseudocode of R66 executes and then empties `CB`. -/
def Obligations.StepRunsDecodedInstruction : Prop :=
  ∀ (s : State) (w : CmdWord) (i : Instr) (rest : List CmdWord),
    s.err = false → s.slice = none → s.prog[s.ci + s.cb.length]? = some w →
    decode s.cfg (s.cb ++ [w]) = .instr i rest →
    step s = exec i { s with ci := s.ci + s.cb.length + 1, cb := [] }

/-- R26: a word that does not complete the command is added to `CB`, and nothing else changes. -/
def Obligations.StepCollectsOperandWords : Prop :=
  ∀ (s : State) (w : CmdWord) (k : Nat),
    s.err = false → s.slice = none → s.prog[s.ci + s.cb.length]? = some w →
    decode s.cfg (s.cb ++ [w]) = .more k →
    step s = .next { s with cb := s.cb ++ [w] }

/-- R122, R125: a word at a head that is not one of the five match values raises `IllegalCommand`. -/
def Obligations.IllegalHeadWordFaults : Prop :=
  ∀ (s : State) (w : CmdWord),
    s.err = false → s.slice = none → s.cb = [] → s.prog[s.ci]? = some w →
    w ∉ ([1, 2, 3, 4, 5] : List CmdWord) →
    ∃ t, step s = .next t ∧ errPort t = 1 ∧ t.cause = .illegalCommand ∧ causePort t = 1 ∧ t.cb = [] ∧
      t.slice = none ∧ t.res = s.res ∧ t.reads = s.reads ∧ t.prog = s.prog ∧ t.ci = s.ci + 1 ∧
      t.mem = s.mem ∧ t.cfg = s.cfg

/-- R65, R66: a word received while collecting is never examined as a head word, so it never raises
`IllegalCommand`. -/
def Obligations.OperandWordsAreNeverIllegal : Prop :=
  ∀ s t : State, Inv s → s.cb ≠ [] → step s = .next t → t.cause ≠ .illegalCommand

/-- R126: from a faulted state, any number of steps discards words and changes nothing a host can see. -/
def Obligations.FaultedBlockOnlyDiscards : Prop :=
  (∀ (s : State) (w : CmdWord), s.err = true → nextWord s = some w →
    step s = .next { s with ci := s.ci + 1 }) ∧
  (∀ (k : Nat) (s : State), s.err = true →
    ∃ t, Host.Core.run Sys2Proof.core k s = .next t ∧ t.err = true ∧ t.cause = s.cause ∧ t.res = s.res ∧
      t.reads = s.reads ∧ t.mem = s.mem)

/-- R126: in the faulted state no command executes. -/
def Obligations.NoCommandExecutesWhenFaulted : Prop :=
  ∀ (i : Instr) (s : State), s.err = true → exec i s = .next s

/-- R127: only reset clears `ERR` and `CAUSE`; no step and no other move of the host does. After it `H` is 0. -/
def Obligations.OnlyResetLeavesFaultedState : Prop :=
  ∀ s : State, s.err = true →
    (∀ t, step s = .next t → t.err = true ∧ t.cause = s.cause) ∧
    (∀ ws, (sendWords ws s).err = true ∧ (sendWords ws s).cause = s.cause) ∧
    ((takeResult s).2.err = true ∧ (takeResult s).2.cause = s.cause) ∧
    (∀ a b, (storeByte a b s).err = true ∧ (storeByte a b s).cause = s.cause) ∧
    (∀ a, (failAddress a s).err = true ∧ (failAddress a s).cause = s.cause) ∧
    (∀ a, (serveAddress a s).err = true ∧ (serveAddress a s).cause = s.cause) ∧
    (assertReset s).err = false ∧ (assertReset s).cause = .noFault ∧ getH (assertReset s) = 0

/-- R150: a partly received command waits for as long as no word comes; the next word, whenever it comes, is taken as
its next word, so that it is added to `CB` or completes the command, which then runs (R26, R66; log entry 10), and
where the invariant holds it is never illegal; reset abandons the command. That a waiting block answers its own state
as the next one, any number of times, is the model's choice (log entry 7): R150 and U11 call the state stuck. The
premise on `ci` is a part of the invariant. -/
def Obligations.PartialCommandWaits : Prop :=
  ∀ s : State, Waiting s → s.ci + s.cb.length ≤ s.prog.length →
    (∀ k, Host.Core.run Sys2Proof.core k s = .next s) ∧
    (∀ w ws,
      (∀ k, decode s.cfg (s.cb ++ [w]) = .more k →
        step (sendWords (w :: ws) s) = .next { sendWords (w :: ws) s with cb := s.cb ++ [w] }) ∧
      (∀ i rest, decode s.cfg (s.cb ++ [w]) = .instr i rest →
        step (sendWords (w :: ws) s) =
          exec i { sendWords (w :: ws) s with ci := s.ci + s.cb.length + 1, cb := [] }) ∧
      (Inv s → ∀ x, decode s.cfg (s.cb ++ [w]) ≠ .illegal x)) ∧
    (assertReset s).cb = []

/-- R145, R148, with the model's whole-command step (log entry 10): a block at a head, fed the words of any list of
instructions its encoding can carry, does what executing the instructions one after another does, with `ci` moved
past all the words; where it stops, it stops for the same reason. -/
def Obligations.FeedingCommandsIsExecutingThem : Prop :=
  ∀ (s : State) (is : List Instr) (rest : List CmdWord),
    s.slice = none → s.cb = [] → (∀ i ∈ is, i.wf s.cfg = true) →
    s.prog.drop s.ci = is.flatMap (encode s.cfg) ++ rest →
    Host.Core.run Sys2Proof.core (is.flatMap (encode s.cfg)).length s =
      atIndex (s.ci + (is.flatMap (encode s.cfg)).length) (execAll is s)

/-! ## INIT, MIXW, LDH, FIN -/

/-- R81: `H <- 0` and nothing else; discarded in the faulted state; one word. -/
def Obligations.InitSetsHToZero : Prop :=
  ∀ s : State,
    encode s.cfg .init = [0x00000001] ∧
    (s.err = false → exec .init s = .next { s with h := 0 }) ∧
    (s.err = true → exec .init s = .next s)

/-- R82: `H <- mix(H, val)` and nothing else; `1 + NW` words. -/
def Obligations.MixwMixesTheValue : Prop :=
  ∀ (s : State) (val : Word), s.err = false →
    exec (.mixw val) s = .next { s with h := mix s.cfg (getH s) val } ∧
    encode s.cfg (.mixw val) = 0x00000002 :: splitWords s.cfg val ∧
    (encode s.cfg (.mixw val)).length = 1 + s.cfg.NW

/-- R80, with the arithmetic of R15 written out over the natural numbers. -/
def Obligations.MixIsRotateXorMultiply : Prop :=
  ∀ (c : Config) (h v : Word), h.toNat < 2 ^ c.W → v.toNat < 2 ^ c.W →
    (mix c h v).toNat =
      ((((h.toNat * 2 ^ 5) % 2 ^ c.W + h.toNat / 2 ^ (c.W - 5)) ^^^ v.toNat) *
        (match c.width with | .w32 => c.k32.toNat | .w64 => 0x517cc1b727220a95)) % 2 ^ c.W

/-- R83: `H <- val` and nothing else; `1 + NW` words; `ldh 0` is `init`. -/
def Obligations.LdhLoadsTheWord : Prop :=
  ∀ (s : State) (val : Word), s.err = false → val.toNat < 2 ^ s.cfg.W →
    exec (.ldh val) s = .next { s with h := val } ∧
    encode s.cfg (.ldh val) = 0x00000005 :: splitWords s.cfg val ∧
    (encode s.cfg (.ldh val)).length = 1 + s.cfg.NW ∧ exec (.ldh 0) s = exec .init s

/-- R100: one result, `H` zero-extended to 64 bits, and nothing else. -/
def Obligations.FinAppendsTheHash : Prop :=
  ∀ s : State,
    encode s.cfg .fin = [0x00000004] ∧
    (s.err = false → exec .fin s = .next { s with res := s.res ++ [getH s] }) ∧
    (s.err = true → exec .fin s = .next s) ∧
    (s.cfg.width = .w64 → getH s = s.h) ∧
    (s.cfg.width = .w32 → getH s = (s.h.setWidth 32).setWidth 64)

/-- R101: `FIN` leaves `H`, two in a row append the same value twice, and a stream with a `FIN` taken out (so with
any number taken out) ends in the same state, its other results as they were. -/
def Obligations.FinIsNonDestructive : Prop :=
  (∀ s t : State, exec .fin s = .next t → t.h = s.h) ∧
  (∀ s : State, s.err = false →
    execAll [.fin, .fin] s = .next { s with res := s.res ++ [getH s, getH s] }) ∧
  (∀ (xs ys : List Instr) (s t : State), execAll (xs ++ .fin :: ys) s = .next t →
    ∃ a v b, t.res = a ++ v ++ b ∧ v.length ≤ 1 ∧
      execAll (xs ++ ys) s = .next { t with res := a ++ b })

/-- R29, R83: `FIN` on one instance and `LDH` of its result on another of the same width copies the accumulator;
the source keeps its own, and neither instance changes otherwise. The rest is the model's choice (log entry 13):
between instances of any widths the destination gets the low bits of its own width, and from a faulted source, where
`FIN` delivers nothing, there is no copy. -/
def Obligations.FinThenLdhCopiesTheAccumulator : Prop :=
  ∀ x y : State,
    (x.err = false → y.err = false → x.cfg.width = y.cfg.width →
      copyAccumulator x y = some ({ x with res := x.res ++ [getH x] }, { y with h := getH x })) ∧
    (x.err = false → y.err = false →
      copyAccumulator x y = some ({ x with res := x.res ++ [getH x] }, { y with h := wrap y.cfg (getH x) })) ∧
    (x.err = true → copyAccumulator x y = none)

/-! ## CONS -/

/-- R92: the chunk-by-chunk pseudocode gives `H <- fold(H, Bytes(addr, len))`, reads each chunk of `peel(len)`
once in ascending order, and changes nothing else (the record of reads: log entry 4). -/
def Obligations.ConsFoldsTheSlice : Prop :=
  ∀ (s : State) (addr len : Word), s.err = false →
    SliceInSpace s addr len → SliceReadable s addr len → SliceOrdinary s addr len →
    ∃ t, exec (.cons addr len) s = .next t ∧
      getH t = fold s.cfg (getH s) (sliceBytes s addr len) ∧
      t = { s with h := t.h, slice := none,
                   reads := s.reads ++ readPlan s.cfg addr (peel s.cfg len.toNat) }

/-- R45: an empty slice reads nothing, mixes nothing and ignores its address; no slice is read outside
`addr .. addr + len - 1`. -/
def Obligations.ConsReadsOnlyItsSlice : Prop :=
  (∀ (s : State) (addr : Word), s.err = false → exec (.cons addr 0) s = .next { s with slice := none }) ∧
  (∀ (s t : State) (addr len : Word), exec (.cons addr len) s = .next t →
    ∃ rs, t.reads = s.reads ++ rs ∧
      ∀ r ∈ rs, addr.toNat ≤ r.addr.toNat ∧ 0 < r.n ∧ r.addr.toNat + r.n ≤ addr.toNat + len.toNat)

/-- R123, R46: a slice that runs past the top of the address space raises `SliceWrap` before any read. -/
def Obligations.ConsSliceWrapFaults : Prop :=
  ∀ (s : State) (addr len : Word), s.err = false →
    0 < len.toNat → 2 ^ s.cfg.W < addr.toNat + len.toNat →
    ∃ t, exec (.cons addr len) s = .next t ∧ errPort t = 1 ∧ t.cause = .sliceWrap ∧ causePort t = 2 ∧
      t.cb = [] ∧ t.slice = none ∧ t.reads = s.reads ∧ t.res = s.res ∧ t.mem = s.mem

/-- R124: `MemFault` exactly when some byte of the slice is answered with `error`; a slice that is empty or ends at
the last byte of the address space never raises `SliceWrap` (R46). That the reads are the first ones of the plan, the
failing one the last of them and none made after it, is the model's reading (log entry 17, DEDUCED, over the record of
reads of log entry 4): an implementation may fetch ahead. -/
def Obligations.ConsMemFaultExactly : Prop :=
  ∀ (s : State) (addr len : Word), s.err = false → s.cause = .noFault →
    SliceInSpace s addr len → SliceOrdinary s addr len →
    ∃ t, exec (.cons addr len) s = .next t ∧
      (t.cause = .memFault ↔ ∃ a, addr.toNat ≤ a ∧ a < addr.toNat + len.toNat ∧ a ∈ s.memErr) ∧
      (t.err = true ↔ t.cause = .memFault) ∧ t.cause ≠ .sliceWrap ∧
      (t.err = true → t.cb = [] ∧ t.slice = none ∧ t.res = s.res ∧ causePort t = 3) ∧
      ∃ rs, t.reads = s.reads ++ rs ∧ rs <+: readPlan s.cfg addr (peel s.cfg len.toNat) ∧
        (t.err = true → ∃ r, rs.getLast? = some r ∧ ∃ a, r.addr.toNat ≤ a ∧ a < r.addr.toNat + r.n ∧ a ∈
      s.memErr) ∧
        ∀ r ∈ rs.dropLast, ∀ a, r.addr.toNat ≤ a → a < r.addr.toNat + r.n → a ∉ s.memErr

/-- R44, U7: a slice that holds an address whose reads have side effects is refused by name (log entry 3). -/
def Obligations.ConsRefusesSideEffectMemory : Prop :=
  ∀ (s : State) (addr len : Word), s.err = false → SliceInSpace s addr len →
    ¬ SliceOrdinary s addr len → exec (.cons addr len) s = .refused .sideEffectSlice

/-- R105, R42: the hash depends on the bytes of the slice and on `H`, not on the address or its alignment. -/
def Obligations.ConsDependsOnlyOnBytes : Prop :=
  ∀ (s1 s2 : State) (a1 a2 len : Word),
    s1.err = false → s2.err = false → s1.cfg = s2.cfg → getH s1 = getH s2 →
    SliceInSpace s1 a1 len → SliceReadable s1 a1 len → SliceOrdinary s1 a1 len →
    SliceInSpace s2 a2 len → SliceReadable s2 a2 len → SliceOrdinary s2 a2 len →
    sliceBytes s1 a1 len = sliceBytes s2 a2 len →
    ∃ t1 t2, exec (.cons a1 len) s1 = .next t1 ∧ exec (.cons a2 len) s2 = .next t2 ∧ getH t1 = getH t2

/-- R104: `init ; cons addr, len ; fin` appends the hash of the slice's bytes, and so does `cons addr, len ; fin`
when `H` is 0, as it is directly after reset. -/
def Obligations.OneShotHash : Prop :=
  ∀ (s : State) (addr len : Word), s.err = false →
    SliceInSpace s addr len → SliceReadable s addr len → SliceOrdinary s addr len →
    ∃ t, execAll [.init, .cons addr len, .fin] s = .next t ∧
      t.res = s.res ++ [hashOf s.cfg (sliceBytes s addr len)] ∧ t.err = false ∧
      (getH s = 0 → ∃ u, execAll [.cons addr len, .fin] s = .next u ∧ u.res = t.res)

/-! ## Frames -/

/-- `INIT`, `MIXW` and `LDH` change `H` and nothing else. -/
def Obligations.HashRegisterCommandsFrame : Prop :=
  ∀ (s t : State) (i : Instr), (i = .init ∨ (∃ v, i = .mixw v) ∨ ∃ v, i = .ldh v) →
    exec i s = .next t →
    t = { s with h := t.h } ∧ (∀ a, Memory.read t.mem a = Memory.read s.mem a)

/-- `FIN` changes `RES` and nothing else. -/
def Obligations.FinFrame : Prop :=
  ∀ s t : State, exec .fin s = .next t →
    t = { s with res := t.res } ∧ (∀ a, Memory.read t.mem a = Memory.read s.mem a)

/-- `CONS` leaves `RES`, what the host has taken, the memory, the command stream and the configuration; it leaves
`CB`, `ERR` and `CAUSE` unless it raises `SliceWrap` or `MemFault`, and `H` when its slice is empty. -/
def Obligations.ConsFrame : Prop :=
  ∀ (s t : State) (addr len : Word), exec (.cons addr len) s = .next t →
    t.res = s.res ∧ t.taken = s.taken ∧ t.cfg = s.cfg ∧ t.prog = s.prog ∧ t.ci = s.ci ∧
    t.memErr = s.memErr ∧ t.memDev = s.memDev ∧
    (∀ a, Memory.read t.mem a = Memory.read s.mem a) ∧
    (len = 0 → t.h = s.h) ∧
    ((t.err = s.err ∧ t.cause = s.cause ∧ t.cb = s.cb ∧ t.free = s.free) ∨
      (t.err = true ∧ (t.cause = .sliceWrap ∨ t.cause = .memFault) ∧ t.cb = [] ∧ t.free = s.free + 1))

/-! ## The mixer and the feeder -/

/-- R110: for an odd `K`, `mix` is injective in each argument over `W`-bit words, and every word is reached from
any state by one value. -/
def Obligations.MixIsBijective : Prop :=
  ∀ c : Config, c.wf = true →
    (∀ h v v' : Word, v.toNat < 2 ^ c.W → v'.toNat < 2 ^ c.W → mix c h v = mix c h v' → v = v') ∧
    (∀ h h' v : Word, h.toNat < 2 ^ c.W → h'.toNat < 2 ^ c.W → mix c h v = mix c h' v → h = h') ∧
    (∀ h x : Word, x.toNat < 2 ^ c.W → ∃ v : Word, v.toNat < 2 ^ c.W ∧ mix c h v = x)

/-- R110: the inverse formulas with `KINV64` and, for the default `K32` (log entry 9), `KINV32`. -/
def Obligations.MixInverseFormulas : Prop :=
  (∀ h v : BitVec 64, v = (mixAt 64 0x517cc1b727220a95 h v * 0x2040003d780970bd) ^^^ h.rotateLeft 5) ∧
  (∀ h v : BitVec 64, h = ((mixAt 64 0x517cc1b727220a95 h v * 0x2040003d780970bd) ^^^ v).rotateRight 5) ∧
  (∀ h v : BitVec 32, v = (mixAt 32 0x9e3779b9 h v * 0x144cbc89) ^^^ h.rotateLeft 5) ∧
  (∀ h v : BitVec 32, h = ((mixAt 32 0x9e3779b9 h v * 0x144cbc89) ^^^ v).rotateRight 5)

/-- R90: `peel` is the while loop and the three tests of the pseudocode, and its widths cover the slice. -/
def Obligations.PeelIsTheLoop : Prop :=
  ∀ (c : Config) (n : Nat),
    (c.WB ≤ n → peel c n = c.WB :: peel c (n - c.WB)) ∧
    (n < c.WB → peel c n =
      (if 4 ≤ n then [4] else []) ++ (if 2 ≤ n % 4 then [2] else []) ++ (if 1 ≤ n % 2 then [1] else [])) ∧
    (peel c n).sum = n

/-- R94: the number of mixing steps and of chunk reads. -/
def Obligations.MixCount : Prop :=
  (∀ (s : State) (addr len : Word), s.err = false →
    SliceInSpace s addr len → SliceReadable s addr len → SliceOrdinary s addr len →
    ∃ t, exec (.cons addr len) s = .next t ∧ t.reads.length = s.reads.length + mixes s.cfg len.toNat) ∧
  ∀ (c : Config) (n : Nat),
    mixes c n = n / c.WB + popcount3 (n % c.WB) ∧
    (∀ bs : List Byte, bs.length = n → (chunkValues c bs).length = mixes c n) ∧
    (c.width = .w64 → popcount3 (n % c.WB) ≤ 3 ∧ mixes c n ≤ (n + 7) / 8 + 2) ∧
    (c.width = .w32 → popcount3 (n % c.WB) ≤ 2 ∧ mixes c n ≤ (n + 3) / 4 + 1)

/-- R41, R91: the bytes of a chunk inside its value under both byte orders, and zero above them. -/
def Obligations.ChunkValueByteOrder : Prop :=
  ∀ (c : Config) (bs : List Byte), bs.length ≤ 8 →
    (cval c bs).toNat < 2 ^ (8 * bs.length) ∧
    ∀ (i : Nat) (h : i < bs.length),
      (c.endian = .le → (cval c bs).extractLsb' (8 * i) 8 = bs[i]) ∧
      (c.endian = .be → (cval c bs).extractLsb' (8 * (bs.length - 1 - i)) 8 = bs[i])

/-- R106: the empty sequence hashes to 0, folding it changes no state, and a `CONS` of length 0 leaves `H`. -/
def Obligations.EmptyInputHashesToZero : Prop :=
  (∀ (c : Config) (h : Word), hashOf c [] = 0 ∧ fold c h [] = h) ∧
  (∀ (s : State) (addr : Word), s.err = false →
    ∃ t, exec (.cons addr 0) s = .next t ∧ getH t = getH s ∧ t.reads = s.reads)

/-- R111: zero is a fixed point, so zero bytes of any number hash to 0. -/
def Obligations.ZeroIsAFixedPoint : Prop :=
  ∀ (c : Config) (n : Nat), mix c 0 0 = 0 ∧ fold c 0 (List.replicate n 0) = 0

/-- R112: inputs of different lengths that form one chunk of the same value collide. -/
def Obligations.ZeroExtensionCollides : Prop :=
  ∀ (c : Config) (x : Byte),
    fold c 0 [x] = mulw c (x.setWidth 64) (kOf c) ∧
    (c.endian = .le → fold c 0 [x, 0] = fold c 0 [x] ∧ fold c 0 [x, 0, 0, 0] = fold c 0 [x] ∧
      (c.width = .w64 → fold c 0 [x, 0, 0, 0, 0, 0, 0, 0] = fold c 0 [x])) ∧
    (c.endian = .be → fold c 0 [0, x] = fold c 0 [x] ∧ fold c 0 [0, 0, 0, x] = fold c 0 [x])

/-- R113: an input whose every chunk is the same list backwards has the same hash under both byte orders. -/
def Obligations.PalindromicChunksIgnoreByteOrder : Prop :=
  ∀ (w : Width) (k : BitVec 32) (h : Word) (bs : List Byte),
    (∀ ch ∈ cut (peel ⟨w, .le, k⟩ bs.length) bs, ch.reverse = ch) →
    fold ⟨w, .le, k⟩ h bs = fold ⟨w, .be, k⟩ h bs

/-- R114: the widths at one less than, exactly, and one more than the word size. -/
def Obligations.WordBoundaryLengths : Prop :=
  ∀ c : Config,
    peel c c.WB = [c.WB] ∧ peel c (c.WB + 1) = [c.WB, 1] ∧
    (c.width = .w64 → peel c (c.WB - 1) = [4, 2, 1]) ∧ (c.width = .w32 → peel c (c.WB - 1) = [2, 1])

/-- R108: pieces consumed one after another are cut into the same chunks, as (offset, width) pairs, as the whole
consumed at once exactly when every split offset is in the boundary set. -/
def Obligations.SplitKeepsChunksIffOnBoundary : Prop :=
  ∀ (c : Config) (ns : List Nat),
    pieceChunks c 0 ns = chunkPairs 0 (peel c ns.sum) ↔
      ∀ j, j ≤ ns.length → (ns.take j).sum ∈ bnd c ns.sum

/-- R108: on the boundary set, consuming the pieces is consuming the whole, for every state and content. -/
def Obligations.SplitOnBoundaryKeepsTheFold : Prop :=
  ∀ (c : Config) (h : Word) (bss : List (List Byte)),
    (∀ j, j ≤ bss.length → ((bss.take j).map List.length).sum ∈ bnd c bss.flatten.length) →
    bss.foldl (fold c) h = fold c h bss.flatten

/-- R108, R144: pieces whose length is a multiple of the word, but for the last, are always safe. -/
def Obligations.WordMultipleSplitsAreSafe : Prop :=
  ∀ (c : Config) (h : Word) (bs1 bs2 : List Byte), bs1.length % c.WB = 0 →
    fold c (fold c h bs1) bs2 = fold c h (bs1 ++ bs2)

/-! ## The host's side -/

/-- R25: results leave in the order they were produced, and the host has them (log entry 19). -/
def Obligations.ResultsLeaveInOrder : Prop :=
  ∀ (s : State) (r : Result), s.err = false →
    (∀ rs, s.res = r :: rs → takeResult s = (some r, { s with res := rs, taken := s.taken ++ [r] })) ∧
    (s.res = [] → takeResult s = (none, s) ∧
      ∃ t, exec .fin s = .next t ∧ takeResult t = (some (getH s), { s with taken := s.taken ++ [getH s] }))

/-- R29: a step of one instance leaves every other instance as it was (log entry 13). -/
def Obligations.InstancesShareNothing : Prop :=
  ∀ (k : Nat) (ss ts : Instances), stepInstance k ss = .next ts →
    ts.length = ss.length ∧ (∀ j, j ≠ k → ts[j]? = ss[j]?) ∧
    (∀ s, ss[k]? = some s → ∃ t, step s = .next t ∧ ts[k]? = some t)

/-- R11: a configuration is built for `W` 32 or 64 alone, and (R8) for an odd `K32` alone. -/
def Obligations.UnsupportedConfigurationsAreRefused : Prop :=
  ∀ (w : Nat) (e : Endian) (k : BitVec 32),
    ((∃ c, Config.build w e k = some c) ↔ (w = 32 ∨ w = 64) ∧ k.toNat % 2 = 1) ∧
    (∀ c, Config.build w e k = some c → c.W = w ∧ c.endian = e ∧ c.k32 = k ∧ c.wf = true)

/-- R68: an operand outside its range is an assembler error, and one inside it is encoded whole. -/
def Obligations.AssemblerRefusesWideOperands : Prop :=
  ∀ (c : Config) (v a n : Nat),
    assembleLine c (.mixw v) = (if v < 2 ^ c.W then some (encode c (.mixw (BitVec.ofNat 64 v))) else none) ∧
    assembleLine c (.ldh v) = (if v < 2 ^ c.W then some (encode c (.ldh (BitVec.ofNat 64 v))) else none) ∧
    assembleLine c (.cons a n) =
      (if a < 2 ^ c.W ∧ n < 2 ^ c.W then
        some (encode c (.cons (BitVec.ofNat 64 a) (BitVec.ofNat 64 n))) else none)

/-- R69: the pseudo-commands are their expansions. -/
def Obligations.PseudoCommandsExpand : Prop :=
  ∀ (c : Config) (a n : Nat), a < 2 ^ c.W → n < 2 ^ c.W →
    assembleLine c (.hash a n) = some (encode c .init ++
      encode c (.cons (BitVec.ofNat 64 a) (BitVec.ofNat 64 n)) ++ encode c .fin) ∧
    assembleLine c .nop = some (encode c (.cons 0 0)) ∧ assembleLine c .peek = some (encode c .fin)

/-- R70: disassembling the encodings of a list of instructions lists them, and an illegal head word ends the
listing (log entry 16). -/
def Obligations.DisassemblyListsTheCommands : Prop :=
  ∀ (c : Config) (is : List Instr), (∀ i ∈ is, i.wf c = true) →
    disassemble c (is.flatMap (encode c)) = is.map .command ∧
    ∀ (w : CmdWord) (ws : List CmdWord), w ∉ ([1, 2, 3, 4, 5] : List CmdWord) →
      disassemble c (is.flatMap (encode c) ++ w :: ws) = is.map .command ++ [.illegal w]

/-- R148, R25: a program of the words of instructions, from any start state at a head, ends with the outcome of
executing them one after another: final `H` and all the values appended to `RES`, or the cause and the values appended
before the fault. Taking results changes no outcome, and a run that waits inside a command has none (R150). The record
of taken results and the form of a start state are the model's (log entry 19). -/
def Obligations.ProgramRunOutcome : Prop :=
  (∀ (p : Program) (is : List Instr) (t : State),
    p.start.slice = none → p.start.cb = [] → (∀ i ∈ is, i.wf p.cfg = true) →
    p.words = is.flatMap (encode p.cfg) → execAll is (loadProgram p) = .next t →
    ∃ u, runProgram p = .next u ∧ produced u = produced p.start ++ appendedSince p.start u ∧
      outcomeOf (loadProgram p) u = some
        (if t.err then .faulted t.cause (appendedSince p.start t)
         else .normal (getH t) (appendedSince p.start t))) ∧
  (∀ start s : State, outcomeOf start (takeResult s).2 = outcomeOf start s) ∧
  (∀ start s : State, Waiting s → outcomeOf start s = none)
end

