-- ==== Sys2Proof/Laws/Decode.lean ====
section
/-! SUPPORT. The decoder: the head word's cases and the operand words. -/

namespace Sys2Proof

/-- A head word selects a command exactly when it is that command's match value. -/
theorem opOfHead_eq_some (w : CmdWord) (op : Op) : opOfHead w = some op ↔ w = op.head := by
  have hm : ∀ x : CmdWord, w &&& 0xffffffff = x ↔ w = x := fun x => by
    rw [show (0xffffffff : CmdWord) = BitVec.allOnes 32 from rfl, BitVec.and_allOnes]
  constructor
  · intro h
    simp only [opOfHead, opcodeMap, List.find?] at h
    repeat' split at h
    all_goals simp_all [Op.head]
    all_goals (subst h; rfl)
  · rintro rfl
    cases op <;> rfl

@[simp] theorem opOfHead_head (op : Op) : opOfHead op.head = some op := (opOfHead_eq_some _ _).2 rfl

theorem opOfHead_eq_none (w : CmdWord) : opOfHead w = none ↔ ∀ op : Op, w ≠ op.head := by
  rw [Option.eq_none_iff_forall_ne_some]
  exact forall_congr' fun op => not_congr (opOfHead_eq_some w op)

/-- Decoding a head word that selects a command. -/
theorem decode_head (c : Config) (op : Op) (ws : List CmdWord) :
    decode c (op.head :: ws) =
      if ws.length < op.operandWords c then .more (op.operandWords c - ws.length)
      else .instr (op.build c (ws.take (op.operandWords c))) (ws.drop (op.operandWords c)) := by
  simp [decode]

/-- Everything the decoder can say of a list that is not empty. -/
theorem decode_cons_cases (c : Config) (w : CmdWord) (ws : List CmdWord) :
    (opOfHead w = none ∧ decode c (w :: ws) = .illegal w) ∨
    (∃ op : Op, w = op.head ∧ ws.length < op.operandWords c ∧
      decode c (w :: ws) = .more (op.operandWords c - ws.length)) ∨
    (∃ op : Op, w = op.head ∧ op.operandWords c ≤ ws.length ∧
      decode c (w :: ws) =
        .instr (op.build c (ws.take (op.operandWords c))) (ws.drop (op.operandWords c))) := by
  cases h : opOfHead w with
  | none => exact .inl ⟨rfl, by simp [decode, h]⟩
  | some op =>
    obtain rfl := (opOfHead_eq_some w op).1 h
    by_cases hl : ws.length < op.operandWords c
    · exact .inr (.inl ⟨op, rfl, hl, by simp [decode_head, hl]⟩)
    · exact .inr (.inr ⟨op, rfl, by omega, by simp [decode_head, hl]⟩)

@[simp] theorem splitWords_length (c : Config) (v : Word) : (splitWords c v).length = c.NW := by
  obtain ⟨w, e, k⟩ := c; cases w <;> rfl

@[simp] theorem operands_length (c : Config) (i : Instr) : (i.operands c).length = i.op.operandWords c := by
  cases i <;> simp [Instr.operands, Instr.op, Op.operandWords, Op.format]; omega

@[simp] theorem encode_length (c : Config) (i : Instr) : (encode c i).length = i.length c := by
  simp [encode, Instr.length]; omega

end Sys2Proof
end

