-- ==== Sys2Proof/Laws/State.lean ====
section
/-! SUPPORT. What each named update of the state does to each field: one lemma per field and update. -/

namespace Sys2Proof.Machine

/-! `setH` -/

@[simp] theorem setH_cfg (v : Word) (s : State) : (setH v s).cfg = s.cfg := rfl
@[simp] theorem setH_h (v : Word) (s : State) : (setH v s).h = wrap s.cfg v := rfl
@[simp] theorem setH_err (v : Word) (s : State) : (setH v s).err = s.err := rfl
@[simp] theorem setH_cause (v : Word) (s : State) : (setH v s).cause = s.cause := rfl
@[simp] theorem setH_res (v : Word) (s : State) : (setH v s).res = s.res := rfl
@[simp] theorem setH_taken (v : Word) (s : State) : (setH v s).taken = s.taken := rfl
@[simp] theorem setH_cb (v : Word) (s : State) : (setH v s).cb = s.cb := rfl
@[simp] theorem setH_slice (v : Word) (s : State) : (setH v s).slice = s.slice := rfl
@[simp] theorem setH_prog (v : Word) (s : State) : (setH v s).prog = s.prog := rfl
@[simp] theorem setH_ci (v : Word) (s : State) : (setH v s).ci = s.ci := rfl
@[simp] theorem setH_mem (v : Word) (s : State) : (setH v s).mem = s.mem := rfl
@[simp] theorem setH_memErr (v : Word) (s : State) : (setH v s).memErr = s.memErr := rfl
@[simp] theorem setH_memDev (v : Word) (s : State) : (setH v s).memDev = s.memDev := rfl
@[simp] theorem setH_reads (v : Word) (s : State) : (setH v s).reads = s.reads := rfl
@[simp] theorem setH_free (v : Word) (s : State) : (setH v s).free = s.free := rfl

/-! `pushResult` -/

@[simp] theorem pushResult_cfg (v : Result) (s : State) : (pushResult v s).cfg = s.cfg := rfl
@[simp] theorem pushResult_h (v : Result) (s : State) : (pushResult v s).h = s.h := rfl
@[simp] theorem pushResult_err (v : Result) (s : State) : (pushResult v s).err = s.err := rfl
@[simp] theorem pushResult_cause (v : Result) (s : State) : (pushResult v s).cause = s.cause := rfl
@[simp] theorem pushResult_res (v : Result) (s : State) : (pushResult v s).res = s.res ++ [v] := rfl
@[simp] theorem pushResult_taken (v : Result) (s : State) : (pushResult v s).taken = s.taken := rfl
@[simp] theorem pushResult_cb (v : Result) (s : State) : (pushResult v s).cb = s.cb := rfl
@[simp] theorem pushResult_slice (v : Result) (s : State) : (pushResult v s).slice = s.slice := rfl
@[simp] theorem pushResult_prog (v : Result) (s : State) : (pushResult v s).prog = s.prog := rfl
@[simp] theorem pushResult_ci (v : Result) (s : State) : (pushResult v s).ci = s.ci := rfl
@[simp] theorem pushResult_mem (v : Result) (s : State) : (pushResult v s).mem = s.mem := rfl
@[simp] theorem pushResult_memErr (v : Result) (s : State) : (pushResult v s).memErr = s.memErr := rfl
@[simp] theorem pushResult_memDev (v : Result) (s : State) : (pushResult v s).memDev = s.memDev := rfl
@[simp] theorem pushResult_reads (v : Result) (s : State) : (pushResult v s).reads = s.reads := rfl
@[simp] theorem pushResult_free (v : Result) (s : State) : (pushResult v s).free = s.free := rfl

/-! `raise` -/

@[simp] theorem raise_cfg (x : Cause) (s : State) : (raise x s).cfg = s.cfg := rfl
@[simp] theorem raise_h (x : Cause) (s : State) : (raise x s).h = wrap s.cfg (Config.freeH s.free) := rfl
@[simp] theorem raise_err (x : Cause) (s : State) : (raise x s).err = true := rfl
@[simp] theorem raise_cause (x : Cause) (s : State) : (raise x s).cause = x := rfl
@[simp] theorem raise_res (x : Cause) (s : State) : (raise x s).res = s.res := rfl
@[simp] theorem raise_taken (x : Cause) (s : State) : (raise x s).taken = s.taken := rfl
@[simp] theorem raise_cb (x : Cause) (s : State) : (raise x s).cb = [] := rfl
@[simp] theorem raise_slice (x : Cause) (s : State) : (raise x s).slice = none := rfl
@[simp] theorem raise_prog (x : Cause) (s : State) : (raise x s).prog = s.prog := rfl
@[simp] theorem raise_ci (x : Cause) (s : State) : (raise x s).ci = s.ci := rfl
@[simp] theorem raise_mem (x : Cause) (s : State) : (raise x s).mem = s.mem := rfl
@[simp] theorem raise_memErr (x : Cause) (s : State) : (raise x s).memErr = s.memErr := rfl
@[simp] theorem raise_memDev (x : Cause) (s : State) : (raise x s).memDev = s.memDev := rfl
@[simp] theorem raise_reads (x : Cause) (s : State) : (raise x s).reads = s.reads := rfl
@[simp] theorem raise_free (x : Cause) (s : State) : (raise x s).free = s.free + 1 := rfl

/-! `logRead` -/

@[simp] theorem logRead_cfg (p : Word) (n : Nat) (s : State) : (logRead p n s).cfg = s.cfg := rfl
@[simp] theorem logRead_h (p : Word) (n : Nat) (s : State) : (logRead p n s).h = s.h := rfl
@[simp] theorem logRead_err (p : Word) (n : Nat) (s : State) : (logRead p n s).err = s.err := rfl
@[simp] theorem logRead_cause (p : Word) (n : Nat) (s : State) : (logRead p n s).cause = s.cause := rfl
@[simp] theorem logRead_res (p : Word) (n : Nat) (s : State) : (logRead p n s).res = s.res := rfl
@[simp] theorem logRead_taken (p : Word) (n : Nat) (s : State) : (logRead p n s).taken = s.taken := rfl
@[simp] theorem logRead_cb (p : Word) (n : Nat) (s : State) : (logRead p n s).cb = s.cb := rfl
@[simp] theorem logRead_slice (p : Word) (n : Nat) (s : State) : (logRead p n s).slice = s.slice := rfl
@[simp] theorem logRead_prog (p : Word) (n : Nat) (s : State) : (logRead p n s).prog = s.prog := rfl
@[simp] theorem logRead_ci (p : Word) (n : Nat) (s : State) : (logRead p n s).ci = s.ci := rfl
@[simp] theorem logRead_mem (p : Word) (n : Nat) (s : State) : (logRead p n s).mem = s.mem := rfl
@[simp] theorem logRead_memErr (p : Word) (n : Nat) (s : State) : (logRead p n s).memErr = s.memErr := rfl
@[simp] theorem logRead_memDev (p : Word) (n : Nat) (s : State) : (logRead p n s).memDev = s.memDev := rfl
@[simp] theorem logRead_reads (p : Word) (n : Nat) (s : State) : (logRead p n s).reads = s.reads ++ [⟨p, n⟩] := rfl
@[simp] theorem logRead_free (p : Word) (n : Nat) (s : State) : (logRead p n s).free = s.free := rfl

/-! `beginSlice` -/

@[simp] theorem beginSlice_cfg (a n : Word) (s : State) : (beginSlice a n s).cfg = s.cfg := rfl
@[simp] theorem beginSlice_h (a n : Word) (s : State) : (beginSlice a n s).h = s.h := rfl
@[simp] theorem beginSlice_err (a n : Word) (s : State) : (beginSlice a n s).err = s.err := rfl
@[simp] theorem beginSlice_cause (a n : Word) (s : State) : (beginSlice a n s).cause = s.cause := rfl
@[simp] theorem beginSlice_res (a n : Word) (s : State) : (beginSlice a n s).res = s.res := rfl
@[simp] theorem beginSlice_taken (a n : Word) (s : State) : (beginSlice a n s).taken = s.taken := rfl
@[simp] theorem beginSlice_cb (a n : Word) (s : State) : (beginSlice a n s).cb = s.cb := rfl
@[simp] theorem beginSlice_slice (a n : Word) (s : State) : (beginSlice a n s).slice = some ⟨a, n⟩ := rfl
@[simp] theorem beginSlice_prog (a n : Word) (s : State) : (beginSlice a n s).prog = s.prog := rfl
@[simp] theorem beginSlice_ci (a n : Word) (s : State) : (beginSlice a n s).ci = s.ci := rfl
@[simp] theorem beginSlice_mem (a n : Word) (s : State) : (beginSlice a n s).mem = s.mem := rfl
@[simp] theorem beginSlice_memErr (a n : Word) (s : State) : (beginSlice a n s).memErr = s.memErr := rfl
@[simp] theorem beginSlice_memDev (a n : Word) (s : State) : (beginSlice a n s).memDev = s.memDev := rfl
@[simp] theorem beginSlice_reads (a n : Word) (s : State) : (beginSlice a n s).reads = s.reads := rfl
@[simp] theorem beginSlice_free (a n : Word) (s : State) : (beginSlice a n s).free = s.free := rfl

/-! `endSlice` -/

@[simp] theorem endSlice_cfg (s : State) : (endSlice s).cfg = s.cfg := rfl
@[simp] theorem endSlice_h (s : State) : (endSlice s).h = s.h := rfl
@[simp] theorem endSlice_err (s : State) : (endSlice s).err = s.err := rfl
@[simp] theorem endSlice_cause (s : State) : (endSlice s).cause = s.cause := rfl
@[simp] theorem endSlice_res (s : State) : (endSlice s).res = s.res := rfl
@[simp] theorem endSlice_taken (s : State) : (endSlice s).taken = s.taken := rfl
@[simp] theorem endSlice_cb (s : State) : (endSlice s).cb = s.cb := rfl
@[simp] theorem endSlice_slice (s : State) : (endSlice s).slice = none := rfl
@[simp] theorem endSlice_prog (s : State) : (endSlice s).prog = s.prog := rfl
@[simp] theorem endSlice_ci (s : State) : (endSlice s).ci = s.ci := rfl
@[simp] theorem endSlice_mem (s : State) : (endSlice s).mem = s.mem := rfl
@[simp] theorem endSlice_memErr (s : State) : (endSlice s).memErr = s.memErr := rfl
@[simp] theorem endSlice_memDev (s : State) : (endSlice s).memDev = s.memDev := rfl
@[simp] theorem endSlice_reads (s : State) : (endSlice s).reads = s.reads := rfl
@[simp] theorem endSlice_free (s : State) : (endSlice s).free = s.free := rfl

/-! `advance` -/

@[simp] theorem advance_cfg (s : State) : (advance s).cfg = s.cfg := rfl
@[simp] theorem advance_h (s : State) : (advance s).h = s.h := rfl
@[simp] theorem advance_err (s : State) : (advance s).err = s.err := rfl
@[simp] theorem advance_cause (s : State) : (advance s).cause = s.cause := rfl
@[simp] theorem advance_res (s : State) : (advance s).res = s.res := rfl
@[simp] theorem advance_taken (s : State) : (advance s).taken = s.taken := rfl
@[simp] theorem advance_cb (s : State) : (advance s).cb = [] := rfl
@[simp] theorem advance_slice (s : State) : (advance s).slice = s.slice := rfl
@[simp] theorem advance_prog (s : State) : (advance s).prog = s.prog := rfl
@[simp] theorem advance_ci (s : State) : (advance s).ci = s.ci + s.cb.length + 1 := rfl
@[simp] theorem advance_mem (s : State) : (advance s).mem = s.mem := rfl
@[simp] theorem advance_memErr (s : State) : (advance s).memErr = s.memErr := rfl
@[simp] theorem advance_memDev (s : State) : (advance s).memDev = s.memDev := rfl
@[simp] theorem advance_reads (s : State) : (advance s).reads = s.reads := rfl
@[simp] theorem advance_free (s : State) : (advance s).free = s.free := rfl

/-! `discard` -/

@[simp] theorem discard_cfg (s : State) : (discard s).cfg = s.cfg := rfl
@[simp] theorem discard_h (s : State) : (discard s).h = s.h := rfl
@[simp] theorem discard_err (s : State) : (discard s).err = s.err := rfl
@[simp] theorem discard_cause (s : State) : (discard s).cause = s.cause := rfl
@[simp] theorem discard_res (s : State) : (discard s).res = s.res := rfl
@[simp] theorem discard_taken (s : State) : (discard s).taken = s.taken := rfl
@[simp] theorem discard_cb (s : State) : (discard s).cb = s.cb := rfl
@[simp] theorem discard_slice (s : State) : (discard s).slice = s.slice := rfl
@[simp] theorem discard_prog (s : State) : (discard s).prog = s.prog := rfl
@[simp] theorem discard_ci (s : State) : (discard s).ci = s.ci + 1 := rfl
@[simp] theorem discard_mem (s : State) : (discard s).mem = s.mem := rfl
@[simp] theorem discard_memErr (s : State) : (discard s).memErr = s.memErr := rfl
@[simp] theorem discard_memDev (s : State) : (discard s).memDev = s.memDev := rfl
@[simp] theorem discard_reads (s : State) : (discard s).reads = s.reads := rfl
@[simp] theorem discard_free (s : State) : (discard s).free = s.free := rfl

/-! `resetBlock` -/

@[simp] theorem resetBlock_cfg (s : State) : (resetBlock s).cfg = s.cfg := rfl
@[simp] theorem resetBlock_h (s : State) : (resetBlock s).h = 0 := rfl
@[simp] theorem resetBlock_err (s : State) : (resetBlock s).err = false := rfl
@[simp] theorem resetBlock_cause (s : State) : (resetBlock s).cause = .noFault := rfl
@[simp] theorem resetBlock_res (s : State) : (resetBlock s).res = [] := rfl
@[simp] theorem resetBlock_taken (s : State) : (resetBlock s).taken = [] := rfl
@[simp] theorem resetBlock_cb (s : State) : (resetBlock s).cb = [] := rfl
@[simp] theorem resetBlock_slice (s : State) : (resetBlock s).slice = none := rfl
@[simp] theorem resetBlock_prog (s : State) : (resetBlock s).prog = s.prog.drop (s.ci + s.cb.length) := rfl
@[simp] theorem resetBlock_ci (s : State) : (resetBlock s).ci = 0 := rfl
@[simp] theorem resetBlock_mem (s : State) : (resetBlock s).mem = s.mem := rfl
@[simp] theorem resetBlock_memErr (s : State) : (resetBlock s).memErr = s.memErr := rfl
@[simp] theorem resetBlock_memDev (s : State) : (resetBlock s).memDev = s.memDev := rfl
@[simp] theorem resetBlock_reads (s : State) : (resetBlock s).reads = [] := rfl
@[simp] theorem resetBlock_free (s : State) : (resetBlock s).free = s.free := rfl

/-! `sendWords` -/

@[simp] theorem sendWords_cfg (ws : List CmdWord) (s : State) : (sendWords ws s).cfg = s.cfg := rfl
@[simp] theorem sendWords_h (ws : List CmdWord) (s : State) : (sendWords ws s).h = s.h := rfl
@[simp] theorem sendWords_err (ws : List CmdWord) (s : State) : (sendWords ws s).err = s.err := rfl
@[simp] theorem sendWords_cause (ws : List CmdWord) (s : State) : (sendWords ws s).cause = s.cause := rfl
@[simp] theorem sendWords_res (ws : List CmdWord) (s : State) : (sendWords ws s).res = s.res := rfl
@[simp] theorem sendWords_taken (ws : List CmdWord) (s : State) : (sendWords ws s).taken = s.taken := rfl
@[simp] theorem sendWords_cb (ws : List CmdWord) (s : State) : (sendWords ws s).cb = s.cb := rfl
@[simp] theorem sendWords_slice (ws : List CmdWord) (s : State) : (sendWords ws s).slice = s.slice := rfl
@[simp] theorem sendWords_prog (ws : List CmdWord) (s : State) : (sendWords ws s).prog = s.prog ++ ws := rfl
@[simp] theorem sendWords_ci (ws : List CmdWord) (s : State) : (sendWords ws s).ci = s.ci := rfl
@[simp] theorem sendWords_mem (ws : List CmdWord) (s : State) : (sendWords ws s).mem = s.mem := rfl
@[simp] theorem sendWords_memErr (ws : List CmdWord) (s : State) : (sendWords ws s).memErr = s.memErr := rfl
@[simp] theorem sendWords_memDev (ws : List CmdWord) (s : State) : (sendWords ws s).memDev = s.memDev := rfl
@[simp] theorem sendWords_reads (ws : List CmdWord) (s : State) : (sendWords ws s).reads = s.reads := rfl
@[simp] theorem sendWords_free (ws : List CmdWord) (s : State) : (sendWords ws s).free = s.free := rfl

/-! `serveAddress` -/

@[simp] theorem serveAddress_cfg (a : Nat) (s : State) : (serveAddress a s).cfg = s.cfg := rfl
@[simp] theorem serveAddress_h (a : Nat) (s : State) : (serveAddress a s).h = s.h := rfl
@[simp] theorem serveAddress_err (a : Nat) (s : State) : (serveAddress a s).err = s.err := rfl
@[simp] theorem serveAddress_cause (a : Nat) (s : State) : (serveAddress a s).cause = s.cause := rfl
@[simp] theorem serveAddress_res (a : Nat) (s : State) : (serveAddress a s).res = s.res := rfl
@[simp] theorem serveAddress_taken (a : Nat) (s : State) : (serveAddress a s).taken = s.taken := rfl
@[simp] theorem serveAddress_cb (a : Nat) (s : State) : (serveAddress a s).cb = s.cb := rfl
@[simp] theorem serveAddress_slice (a : Nat) (s : State) : (serveAddress a s).slice = s.slice := rfl
@[simp] theorem serveAddress_prog (a : Nat) (s : State) : (serveAddress a s).prog = s.prog := rfl
@[simp] theorem serveAddress_ci (a : Nat) (s : State) : (serveAddress a s).ci = s.ci := rfl
@[simp] theorem serveAddress_mem (a : Nat) (s : State) : (serveAddress a s).mem = s.mem := rfl
@[simp] theorem serveAddress_memErr (a : Nat) (s : State) : (serveAddress a s).memErr = s.memErr.filter (· != a) := rfl
@[simp] theorem serveAddress_memDev (a : Nat) (s : State) : (serveAddress a s).memDev = s.memDev := rfl
@[simp] theorem serveAddress_reads (a : Nat) (s : State) : (serveAddress a s).reads = s.reads := rfl
@[simp] theorem serveAddress_free (a : Nat) (s : State) : (serveAddress a s).free = s.free := rfl

/-! The moves with two cases, each lemma everything the move can do. -/

/-- An address that recovers is one that no longer fails; the others stay as they were. -/
theorem mem_serveAddress {a x : Nat} {s : State} :
    x ∈ (serveAddress a s).memErr ↔ x ∈ s.memErr ∧ x ≠ a := by simp

theorem mem_failAddress {a x : Nat} {s : State} : x ∈ (failAddress a s).memErr ↔ x ∈ s.memErr ∨ x = a := by
  unfold failAddress
  split
  · next h => simp at h; exact ⟨.inl, fun h' => h'.elim id fun e => e ▸ h⟩
  · simp [or_comm]

theorem takeResult_cases (s : State) :
    (s.res = [] ∧ takeResult s = (none, s)) ∨
    ∃ r rs, s.res = r :: rs ∧ takeResult s = (some r, { s with res := rs, taken := s.taken ++ [r] }) := by
  cases h : s.res with
  | nil => exact .inl ⟨rfl, by simp [takeResult, h]⟩
  | cons r rs => exact .inr ⟨r, rs, rfl, by simp [takeResult, h]⟩

/-- Taking a result leaves the list of all values produced. -/
@[simp] theorem produced_takeResult (s : State) : produced (takeResult s).2 = produced s := by
  rcases takeResult_cases s with ⟨-, h⟩ | ⟨r, rs, hr, h⟩
  · rw [h]
  · rw [h]; simp [produced, hr]

/-! `moveTo` -/

@[simp] theorem moveTo_cfg (k : Nat) (s : State) : (moveTo k s).cfg = s.cfg := rfl
@[simp] theorem moveTo_h (k : Nat) (s : State) : (moveTo k s).h = s.h := rfl
@[simp] theorem moveTo_err (k : Nat) (s : State) : (moveTo k s).err = s.err := rfl
@[simp] theorem moveTo_cause (k : Nat) (s : State) : (moveTo k s).cause = s.cause := rfl
@[simp] theorem moveTo_res (k : Nat) (s : State) : (moveTo k s).res = s.res := rfl
@[simp] theorem moveTo_taken (k : Nat) (s : State) : (moveTo k s).taken = s.taken := rfl
@[simp] theorem moveTo_cb (k : Nat) (s : State) : (moveTo k s).cb = s.cb := rfl
@[simp] theorem moveTo_slice (k : Nat) (s : State) : (moveTo k s).slice = s.slice := rfl
@[simp] theorem moveTo_prog (k : Nat) (s : State) : (moveTo k s).prog = s.prog := rfl
@[simp] theorem moveTo_ci (k : Nat) (s : State) : (moveTo k s).ci = k := rfl
@[simp] theorem moveTo_mem (k : Nat) (s : State) : (moveTo k s).mem = s.mem := rfl
@[simp] theorem moveTo_memErr (k : Nat) (s : State) : (moveTo k s).memErr = s.memErr := rfl
@[simp] theorem moveTo_memDev (k : Nat) (s : State) : (moveTo k s).memDev = s.memDev := rfl
@[simp] theorem moveTo_reads (k : Nat) (s : State) : (moveTo k s).reads = s.reads := rfl
@[simp] theorem moveTo_free (k : Nat) (s : State) : (moveTo k s).free = s.free := rfl

end Sys2Proof.Machine
end

