-- ==== Sys2Proof/Laws/Memory.lean ====
section
/-! SUPPORT. The slice memory: read after write, the canonical form, and slice reads. -/

namespace Sys2Proof.Machine

theorem wfAbove_mono {l l' : Option Nat} {m : Memory}
    (h : Memory.wfAbove l m = true) (hl : ∀ x, l' = some x → ∃ y, l = some y ∧ x ≤ y) :
    Memory.wfAbove l' m = true := by
  cases m with
  | nil => rfl
  | cons p m =>
    obtain ⟨k, b⟩ := p
    cases l' with
    | none => simp only [Memory.wfAbove, Bool.and_eq_true] at h ⊢; simp_all
    | some x =>
      obtain ⟨y, rfl, hxy⟩ := hl x rfl
      simp only [Memory.wfAbove, Bool.and_eq_true, decide_eq_true_eq] at h ⊢
      exact ⟨⟨lt_of_le_of_lt hxy h.1.1, h.1.2⟩, h.2⟩

/-- Writing keeps the canonical form above any bound below the address written. -/
theorem wfAbove_write {m : Memory} {l : Option Nat} {a : Nat} {b : Byte}
    (h : Memory.wfAbove l m = true) (ha : ∀ x, l = some x → x < a) :
    Memory.wfAbove l (Memory.write m a b) = true := by
  induction m generalizing l with
  | nil =>
    unfold Memory.write Memory.put
    split
    · rfl
    · cases l <;> simp_all [Memory.wfAbove]
  | cons p m ih =>
    obtain ⟨k, x⟩ := p
    have hk := h
    simp only [Memory.wfAbove, Bool.and_eq_true] at hk
    unfold Memory.write
    split
    next hlt =>
      unfold Memory.put
      split
      · exact h
      · next hb =>
        have : Memory.wfAbove (some a) ((k, x) :: m) = true := by
          simp only [Memory.wfAbove, Bool.and_eq_true, decide_eq_true_eq]; exact ⟨⟨hlt, hk.1.2⟩, hk.2⟩
        cases l <;> simp_all [Memory.wfAbove]
    next hlt =>
      split
      next heq =>
        subst heq
        unfold Memory.put
        split
        · exact wfAbove_mono hk.2 fun y hy => ⟨a, rfl, le_of_lt (ha y hy)⟩
        · cases l <;> simp_all [Memory.wfAbove]
      next hne =>
        have := ih (l := some k) hk.2 (by intro y hy; cases hy; omega)
        simp only [Memory.wfAbove, Bool.and_eq_true]
        exact ⟨hk.1, this⟩

/-- Writing keeps the canonical form. -/
theorem write_wf {m : Memory} (a : Nat) (b : Byte) (h : Memory.wf m = true) :
    Memory.wf (Memory.write m a b) = true :=
  wfAbove_write h (by simp)

theorem read_of_wfAbove {m : Memory} {l a : Nat} (h : Memory.wfAbove (some l) m = true) (ha : a ≤ l) :
    Memory.read m a = unlistedByte := by
  induction m generalizing l with
  | nil => rfl
  | cons p m ih =>
    obtain ⟨k, b⟩ := p
    simp only [Memory.wfAbove, Bool.and_eq_true, decide_eq_true_eq] at h
    have : a ≠ k := by omega
    simp only [Memory.read, this, if_false]
    exact ih h.2 (by omega)

/-- A read after a write to the same address gives the byte written. -/
theorem read_write_same {m : Memory} {l : Option Nat} (a : Nat) (b : Byte) (h : Memory.wfAbove l m = true) :
    Memory.read (Memory.write m a b) a = b := by
  induction m generalizing l with
  | nil =>
    unfold Memory.write Memory.put
    split
    · next hb => simp [Memory.read, hb]
    · simp [Memory.read]
  | cons p m ih =>
    obtain ⟨k, x⟩ := p
    simp only [Memory.wfAbove, Bool.and_eq_true] at h
    unfold Memory.write Memory.put
    split
    next hlt =>
      split
      · next hb =>
        have : Memory.wfAbove (some a) ((k, x) :: m) = true := by
          simp only [Memory.wfAbove, Bool.and_eq_true, decide_eq_true_eq]; exact ⟨⟨hlt, h.1.2⟩, h.2⟩
        rw [read_of_wfAbove this le_rfl, hb]
      · simp [Memory.read]
    next hlt =>
      split
      next heq =>
        subst heq
        split
        · next hb => rw [read_of_wfAbove h.2 le_rfl, hb]
        · simp [Memory.read]
      next hne =>
        simp only [Memory.read, hne, if_false]
        exact ih h.2

/-- A write leaves every other address alone. -/
theorem read_write_other (m : Memory) {a a' : Nat} (b : Byte) (hne : a' ≠ a) :
    Memory.read (Memory.write m a b) a' = Memory.read m a' := by
  induction m with
  | nil =>
    unfold Memory.write Memory.put
    split <;> simp [Memory.read, hne]
  | cons p m ih =>
    obtain ⟨k, x⟩ := p
    unfold Memory.write Memory.put
    split
    · split <;> simp [Memory.read, hne]
    · split
      · next heq => subst heq; split <;> simp [Memory.read, hne]
      · simp [Memory.read, ih]

/-- Every address listed after a write was listed before, or is the address written. -/
theorem mem_write {m : Memory} {a : Nat} {b : Byte} {x : Host.Cell} (h : x ∈ Memory.write m a b) :
    x ∈ m ∨ x.1 = a := by
  induction m with
  | nil =>
    unfold Memory.write Memory.put at h
    split at h <;> simp_all
  | cons p m ih =>
    obtain ⟨k, y⟩ := p
    unfold Memory.write Memory.put at h
    split at h
    · split at h
      · exact .inl h
      · rcases List.mem_cons.1 h with rfl | h
        · exact .inr rfl
        · exact .inl h
    · split at h
      · split at h
        · exact .inl (List.mem_cons_of_mem _ h)
        · rcases List.mem_cons.1 h with rfl | h
          · exact .inr rfl
          · exact .inl (List.mem_cons_of_mem _ h)
      · rcases List.mem_cons.1 h with rfl | h
        · exact .inl (by simp)
        · rcases ih h with h | h
          · exact .inl (List.mem_cons_of_mem _ h)
          · exact .inr h

@[simp] theorem bytes_length (m : Memory) (n a : Nat) : (Memory.bytes m n a).length = n := by
  induction n generalizing a with
  | zero => rfl
  | succ n ih => simp [Memory.bytes, ih]

theorem bytes_add (m : Memory) (j n a : Nat) :
    Memory.bytes m (j + n) a = Memory.bytes m j a ++ Memory.bytes m n (a + j) := by
  induction j generalizing a with
  | zero => simp [Memory.bytes]
  | succ j ih =>
    rw [show j + 1 + n = (j + n) + 1 by omega, Memory.bytes, ih, Memory.bytes,
      show a + 1 + j = a + (j + 1) by omega]
    rfl

/-- `MemRead` answers the bytes stored when no byte of it answers `error` (20_memory.md R40, R53). -/
theorem readBytes_ok (s : State) (n a : Nat) (h : ∀ x, a ≤ x → x < a + n → x ∉ s.memErr) :
    readBytes s n a = some (Memory.bytes s.mem n a) := by
  induction n generalizing a with
  | zero => rfl
  | succ n ih =>
    have h0 : a ∉ s.memErr := h a le_rfl (by omega)
    simp [readBytes, readByte, h0, Memory.bytes, ih (a + 1) fun x hx hx' => h x (by omega) (by omega)]

/-- `MemRead` answers `error` exactly when some byte of it does (20_memory.md R53). -/
theorem readBytes_eq_none (s : State) (n a : Nat) :
    readBytes s n a = none ↔ ∃ x, a ≤ x ∧ x < a + n ∧ x ∈ s.memErr := by
  constructor
  · intro h
    by_contra hn
    push Not at hn
    rw [readBytes_ok s n a fun x h1 h2 => hn x h1 h2] at h
    cases h
  · rintro ⟨x, h1, h2, hx⟩
    induction n generalizing a with
    | zero => omega
    | succ n ih =>
      rcases Nat.eq_or_lt_of_le h1 with rfl | h1
      · simp [readBytes, readByte, hx]
      · rw [readBytes]
        split
        · rfl
        · rw [ih (a + 1) h1 (by omega)]; rfl

end Sys2Proof.Machine
end

