-- ==== Sys2Proof/Laws/Words.lean ====
section
/-! SUPPORT. `W`-bit values: `wrap`, `getH`, `setH` and the mixing step stay below `2^W`. -/

namespace Sys2Proof.Machine

theorem wrap_toNat (c : Config) (v : Word) : (wrap c v).toNat = v.toNat % 2 ^ c.W := by
  obtain ⟨w, e, k⟩ := c
  cases w
  · simp [wrap, Config.W]; omega
  · simpa [wrap, Config.W] using (Nat.mod_eq_of_lt v.isLt).symm

theorem wrap_lt (c : Config) (v : Word) : (wrap c v).toNat < 2 ^ c.W := by
  rw [wrap_toNat]; exact Nat.mod_lt _ (Nat.two_pow_pos _)

theorem wrap_of_lt (c : Config) (v : Word) (h : v.toNat < 2 ^ c.W) : wrap c v = v :=
  BitVec.eq_of_toNat_eq (by rw [wrap_toNat, Nat.mod_eq_of_lt h])

@[simp] theorem wrap_wrap (c : Config) (v : Word) : wrap c (wrap c v) = wrap c v :=
  wrap_of_lt c _ (wrap_lt c v)

@[simp] theorem wrap_mix (c : Config) (h v : Word) : wrap c (mix c h v) = mix c h v := by
  obtain ⟨w, e, k⟩ := c
  cases w
  · apply wrap_of_lt; simp [mix, Config.W]; omega
  · rfl

theorem mix_lt (c : Config) (h v : Word) : (mix c h v).toNat < 2 ^ c.W := by
  rw [← wrap_mix]; exact wrap_lt c _

@[simp] theorem wrap_zero (c : Config) : wrap c 0#64 = 0#64 := by
  obtain ⟨w, e, k⟩ := c; cases w <;> rfl

@[simp] theorem getH_setH (v : Word) (s : State) : getH (setH v s) = wrap s.cfg v := by
  simp [getH, setH]

theorem getH_lt (s : State) : (getH s).toNat < 2 ^ s.cfg.W := wrap_lt _ _

/-- `WB` and `W` agree (00_scope.md R10). -/
theorem eight_mul_WB (c : Config) : 8 * c.WB = c.W := by
  obtain ⟨w, e, k⟩ := c; cases w <;> rfl

theorem WB_pos (c : Config) : 0 < c.WB := by
  obtain ⟨w, e, k⟩ := c; cases w <;> simp [Config.WB]

theorem WB_cases (c : Config) : c.WB = 4 ∨ c.WB = 8 := by
  obtain ⟨w, e, k⟩ := c; cases w
  · exact .inl rfl
  · exact .inr rfl

theorem W_cases (c : Config) : c.W = 32 ∧ c.WB = 4 ∧ c.NW = 1 ∨ c.W = 64 ∧ c.WB = 8 ∧ c.NW = 2 := by
  obtain ⟨w, e, k⟩ := c; cases w
  · exact .inl ⟨rfl, rfl, rfl⟩
  · exact .inr ⟨rfl, rfl, rfl⟩

/-- Everything the slice progress does at one chunk of `m` bytes: `REM` falls by `m`, `PTR` rises by `m` unless it was
the last chunk, and the slice stays inside the address space (41_consume.md R92, 20_memory.md R46). -/
theorem slice_advance {c : Config} {p r : Word} {m : Nat} (h : p.toNat + r.toNat ≤ 2 ^ c.W)
    (hm : m ≤ r.toNat) :
    (r - BitVec.ofNat 64 m).toNat = r.toNat - m ∧
    (wrap c (p + BitVec.ofNat 64 m)).toNat + (r.toNat - m) ≤ 2 ^ c.W ∧
    ((wrap c (p + BitVec.ofNat 64 m)).toNat = p.toNat + m ∨ r.toNat = m) := by
  have h1 := r.isLt
  have hW : 2 ^ c.W ≤ 2 ^ 64 := Nat.pow_le_pow_right (by decide) (by rcases W_cases c with h | h <;> omega)
  have hm' : m % 2 ^ 64 = m := Nat.mod_eq_of_lt (by omega)
  have e1 : (r - BitVec.ofNat 64 m).toNat = r.toNat - m := by
    rw [BitVec.toNat_sub_of_le (by rw [BitVec.le_def, BitVec.toNat_ofNat, hm']; exact hm), BitVec.toNat_ofNat, hm']
  have e2 : (wrap c (p + BitVec.ofNat 64 m)).toNat = (p.toNat + m) % 2 ^ c.W := by
    rw [wrap_toNat, BitVec.toNat_add, BitVec.toNat_ofNat, hm']
    have : 2 ^ c.W ∣ 2 ^ 64 := Nat.pow_dvd_pow 2 (by rcases W_cases c with h | h <;> omega)
    rw [Nat.mod_mod_of_dvd _ this]
  refine ⟨e1, ?_, ?_⟩
  · rw [e2]
    rcases Nat.lt_or_ge (p.toNat + m) (2 ^ c.W) with hl | hl
    · rw [Nat.mod_eq_of_lt hl]; omega
    · have : p.toNat + m = 2 ^ c.W := by omega
      rw [this, Nat.mod_self]; omega
  · rw [e2]
    rcases Nat.lt_or_ge (p.toNat + m) (2 ^ c.W) with hl | hl
    · left; exact Nat.mod_eq_of_lt hl
    · right; omega

end Sys2Proof.Machine
end

