-- ==== Sys2Proof/Laws/Ops.lean ====
section
/-! SUPPORT. What each shared operation can do, said once: discarding, the chunk step, the feeder, `exec`. -/

namespace Sys2Proof.Machine

@[simp] theorem whenRunning_running {s : State} (f : State → StepOutcome) (h : s.err = false) :
    whenRunning s f = f s := by simp [whenRunning, h]

@[simp] theorem whenRunning_faulted {s : State} (f : State → StepOutcome) (h : s.err = true) :
    whenRunning s f = .next s := by simp [whenRunning, h]

/-- With no `CONS` in progress a chunk test does nothing. -/
theorem tryChunk_none {s : State} (m : Nat) (h : s.slice = none) : tryChunk s m = s := by
  simp [tryChunk, h]

/-- A chunk test of more bytes than remain does nothing. -/
theorem tryChunk_skip {s : State} {sl : Slice} {m : Nat} (h : s.slice = some sl) (hm : sl.rem.toNat < m) :
    tryChunk s m = s := by
  simp [tryChunk, h, Nat.not_le.2 hm]

/-- A chunk whose bytes are all answered is mixed, and the slice progress moves on. -/
theorem tryChunk_ok {s : State} {sl : Slice} {m : Nat} (h : s.slice = some sl) (hm : m ≤ sl.rem.toNat)
    (hr : ∀ x, sl.ptr.toNat ≤ x → x < sl.ptr.toNat + m → x ∉ s.memErr) :
    tryChunk s m =
      { s with
        h := mix s.cfg (getH s) (cval s.cfg (Memory.bytes s.mem m sl.ptr.toNat)),
        reads := s.reads ++ [⟨sl.ptr, m⟩],
        slice := some ⟨wrap s.cfg (sl.ptr + BitVec.ofNat 64 m), sl.rem - BitVec.ofNat 64 m⟩ } := by
  simp [tryChunk, h, hm, chunkStep, readBytes_ok s m _ hr, setH, logRead]

/-- A chunk with a byte answered `error` is logged and raises `MemFault`. -/
theorem tryChunk_error {s : State} {sl : Slice} {m : Nat} (h : s.slice = some sl) (hm : m ≤ sl.rem.toNat)
    (hr : ∃ x, sl.ptr.toNat ≤ x ∧ x < sl.ptr.toNat + m ∧ x ∈ s.memErr) :
    tryChunk s m = raise .memFault (logRead sl.ptr m s) := by
  simp [tryChunk, h, hm, chunkStep, (readBytes_eq_none s m _).2 hr]

/-- Everything a chunk test can do. -/
theorem tryChunk_cases (s : State) (m : Nat) :
    tryChunk s m = s ∨ (∃ sl, s.slice = some sl ∧ m ≤ sl.rem.toNat ∧
      (tryChunk s m = raise .memFault (logRead sl.ptr m s) ∨
        tryChunk s m =
          { s with
            h := mix s.cfg (getH s) (cval s.cfg (Memory.bytes s.mem m sl.ptr.toNat)),
            reads := s.reads ++ [⟨sl.ptr, m⟩],
            slice := some ⟨wrap s.cfg (sl.ptr + BitVec.ofNat 64 m), sl.rem - BitVec.ofNat 64 m⟩ })) := by
  cases hs : s.slice with
  | none => exact .inl (tryChunk_none m hs)
  | some sl =>
    by_cases hm : m ≤ sl.rem.toNat
    · refine .inr ⟨sl, rfl, hm, ?_⟩
      by_cases hr : ∃ x, sl.ptr.toNat ≤ x ∧ x < sl.ptr.toNat + m ∧ x ∈ s.memErr
      · exact .inl (tryChunk_error hs hm hr)
      · push Not at hr
        exact .inr (tryChunk_ok hs hm hr)
    · exact .inl (tryChunk_skip hs (by omega))

/-- What no chunk test changes. -/
theorem tryChunk_frame (s : State) (m : Nat) :
    (tryChunk s m).cfg = s.cfg ∧ (tryChunk s m).res = s.res ∧ (tryChunk s m).prog = s.prog ∧
    (tryChunk s m).ci = s.ci ∧ (tryChunk s m).mem = s.mem ∧ (tryChunk s m).memErr = s.memErr ∧
    (tryChunk s m).memDev = s.memDev := by
  rcases tryChunk_cases s m with h | ⟨sl, -, -, h | h⟩ <;> simp [h]

/-- What no sequence of chunk tests changes. -/
theorem foldl_tryChunk_frame (ms : List Nat) (s : State) :
    (ms.foldl tryChunk s).cfg = s.cfg ∧ (ms.foldl tryChunk s).res = s.res ∧
    (ms.foldl tryChunk s).prog = s.prog ∧ (ms.foldl tryChunk s).ci = s.ci ∧
    (ms.foldl tryChunk s).mem = s.mem ∧ (ms.foldl tryChunk s).memErr = s.memErr ∧
    (ms.foldl tryChunk s).memDev = s.memDev := by
  induction ms generalizing s with
  | nil => simp
  | cons m ms ih =>
    obtain ⟨h1, h2, h3, h4, h5, h6, h7⟩ := tryChunk_frame s m
    obtain ⟨g1, g2, g3, g4, g5, g6, g7⟩ := ih (tryChunk s m)
    simp_all

/-- A property kept by a chunk test that can take place is kept by a sequence of them. -/
theorem foldl_tryChunk_induct {P : State → Prop} (step : ∀ s m, P s → P (tryChunk s m)) (ms : List Nat)
    {s : State} (h : P s) : P (ms.foldl tryChunk s) := by
  induction ms generalizing s with
  | nil => exact h
  | cons m ms ih => exact ih (step s m h)

/-- No chunk test takes a result. -/
theorem foldl_tryChunk_taken (ms : List Nat) (s : State) : (ms.foldl tryChunk s).taken = s.taken := by
  refine foldl_tryChunk_induct (P := fun t => t.taken = s.taken) (fun t m h => ?_) ms rfl
  rcases tryChunk_cases t m with e | ⟨sl, -, -, e | e⟩ <;> simp [e, h]

/-- With no `CONS` in progress a sequence of chunk tests does nothing. -/
theorem foldl_tryChunk_none (ms : List Nat) {s : State} (h : s.slice = none) : ms.foldl tryChunk s = s := by
  induction ms with
  | nil => rfl
  | cons m ms ih => rw [List.foldl_cons, tryChunk_none m h, ih]

/-- Everything `feedSlice` can do. -/
theorem feedSlice_cases (s : State) :
    (s.slice = none ∧ feedSlice s = .next s) ∨
    (∃ sl, s.slice = some sl ∧ touchesDevice s sl = true ∧ feedSlice s = .refused .sideEffectSlice) ∨
    (∃ sl, s.slice = some sl ∧ touchesDevice s sl = false ∧
      feedSlice s = .next (endSlice ((chunkTests s.cfg sl.rem.toNat).foldl tryChunk s))) := by
  cases hs : s.slice with
  | none => exact .inl ⟨rfl, by simp [feedSlice, hs]⟩
  | some sl =>
    cases hd : touchesDevice s sl
    · exact .inr (.inr ⟨sl, rfl, hd, by simp [feedSlice, hs, hd]⟩)
    · exact .inr (.inl ⟨sl, rfl, hd, by simp [feedSlice, hs, hd]⟩)

/-- A `CONS` that ends in a next state: discarded, a wrapping slice, or a slice fed to its end. -/
theorem execCons_next {addr len : Word} {s t : State} (h : exec (.cons addr len) s = .next t) :
    (s.err = true ∧ t = s) ∨
    (s.err = false ∧ sliceWraps s.cfg addr len = true ∧ t = raise .sliceWrap s) ∨
    (s.err = false ∧ sliceWraps s.cfg addr len = false ∧
      t = endSlice ((chunkTests s.cfg len.toNat).foldl tryChunk (beginSlice addr len s))) := by
  simp only [exec, execCons] at h
  cases he : s.err
  · rw [whenRunning_running _ he] at h
    cases hw : sliceWraps s.cfg addr len
    · rw [hw] at h
      rcases feedSlice_cases (beginSlice addr len s) with ⟨h1, -⟩ | ⟨sl, h1, -, h2⟩ | ⟨sl, h1, -, h2⟩
      · cases h1
      · simp [h2] at h
      · cases h1
        simp only [Bool.false_eq_true, if_false, h2, Host.Outcome.next.injEq] at h
        exact .inr (.inr ⟨rfl, rfl, h.symm⟩)
    · simp only [hw, if_true, Host.Outcome.next.injEq] at h
      exact .inr (.inl ⟨rfl, rfl, h.symm⟩)
  · rw [whenRunning_faulted _ he] at h
    cases h
    exact .inl ⟨rfl, rfl⟩

/-- What no command changes: the configuration, the command stream, the slice memory. -/
theorem exec_frame {i : Instr} {s t : State} (h : exec i s = .next t) :
    t.cfg = s.cfg ∧ t.prog = s.prog ∧ t.ci = s.ci ∧ t.mem = s.mem ∧ t.memErr = s.memErr ∧
    t.memDev = s.memDev := by
  cases i with
  | cons addr len =>
    rcases execCons_next h with ⟨-, rfl⟩ | ⟨-, -, rfl⟩ | ⟨-, -, rfl⟩
    · simp
    · simp
    · obtain ⟨h1, h2, h3, h4, h5, h6, h7⟩ :=
        foldl_tryChunk_frame (chunkTests s.cfg len.toNat) (beginSlice addr len s)
      simp [h1, h3, h4, h5, h6, h7]
  | _ =>
    cases he : s.err <;>
      simp [exec, execInit, execMixw, execFin, execLdh, whenRunning, he] at h <;> subst h <;> simp

/-- No command takes a result: that is the host's move (10_state.md R25). -/
theorem exec_taken {i : Instr} {s t : State} (h : exec i s = .next t) : t.taken = s.taken := by
  cases i with
  | cons addr len =>
    rcases execCons_next h with ⟨-, rfl⟩ | ⟨-, -, rfl⟩ | ⟨-, -, rfl⟩
    · rfl
    · rfl
    · simp [foldl_tryChunk_taken]
  | _ =>
    cases he : s.err <;>
      simp [exec, execInit, execMixw, execFin, execLdh, whenRunning, he] at h <;> subst h <;> simp

/-- A step that answers a next state. -/
theorem transact_cases {s t : State} (h : transact s = .next t) :
    (t = s ∧ (s.slice = none ∨ s.err = true) ∧ nextWord s = none) ∨
    (s.err = true ∧ nextWord s ≠ none ∧ t = discard s) ∨
    (s.err = false ∧ s.slice ≠ none ∧ feedSlice s = .next t) ∨
    (∃ w, s.err = false ∧ s.slice = none ∧ nextWord s = some w ∧
      ((∃ x, decode s.cfg (s.cb ++ [w]) = .illegal x ∧ t = raise .illegalCommand (advance s)) ∨
       (∃ k, decode s.cfg (s.cb ++ [w]) = .more k ∧ t = { s with cb := s.cb ++ [w] }) ∨
       (∃ i rest, decode s.cfg (s.cb ++ [w]) = .instr i rest ∧ exec i (advance s) = .next t))) := by
  unfold transact at h
  split at h
  · next he =>
    split at h
    · next hn => cases h; exact .inl ⟨rfl, .inr he, hn⟩
    · next hw => cases h; exact .inr (.inl ⟨he, by simp [hw], rfl⟩)
  · next he =>
    have he : s.err = false := by simpa using he
    split at h
    · next hs => exact .inr (.inr (.inl ⟨he, by simp [hs], h⟩))
    · next hs =>
      split at h
      · next hn => cases h; exact .inl ⟨rfl, .inl hs, hn⟩
      · next w hw =>
        refine .inr (.inr (.inr ⟨w, he, hs, hw, ?_⟩))
        unfold acceptWord at h
        split at h
        · next x hd => cases h; exact .inl ⟨x, hd, rfl⟩
        · next k hd => cases h; exact .inr (.inl ⟨k, hd, rfl⟩)
        · next i rest hd => exact .inr (.inr ⟨i, rest, hd, h⟩)

/-- No step takes a result. -/
theorem transact_taken {s t : State} (h : transact s = .next t) : t.taken = s.taken := by
  rcases transact_cases h with
    ⟨rfl, -⟩ | ⟨-, -, rfl⟩ | ⟨-, -, hf⟩ | ⟨w, -, -, -, ⟨x, -, rfl⟩ | ⟨k, -, rfl⟩ | ⟨i, rest, -, hx⟩⟩
  · rfl
  · rfl
  · rcases feedSlice_cases s with ⟨-, e⟩ | ⟨_, -, -, e⟩ | ⟨sl, -, -, e⟩ <;> rw [e] at hf <;> cases hf
    · rfl
    · simp [foldl_tryChunk_taken]
  · rfl
  · rfl
  · simpa using exec_taken hx

end Sys2Proof.Machine
end

