-- ==== Sys2Proof/Laws/PerInstr.lean ====
section
/-! SUPPORT. One statement per constructor: the shape of its encoding. -/

namespace Sys2Proof.Laws.Length

/-- The encoding of `i` starts with the head word that selects its row of the opcode map and has as many words
as 30_encoding.md R61 gives its format, at most the longest command's. -/
def Statement (i : Instr) : Prop :=
  ∀ c : Config,
    (encode c i).length = i.length c ∧ i.length c ≤ maxWords c ∧
    (encode c i).head? = some i.op.head ∧ opOfHead i.op.head = some i.op

theorem init : Statement .init := fun c =>
  ⟨encode_length c _, by simp [Instr.length, Instr.op, Op.operandWords, Op.format, maxWords], rfl, opOfHead_head _⟩

theorem mixw (val : Word) : Statement (.mixw val) := fun c =>
  ⟨encode_length c _, by simp [Instr.length, Instr.op, Op.operandWords, Op.format, maxWords]; omega, rfl, opOfHead_head _⟩

theorem cons (addr len : Word) : Statement (.cons addr len) := fun c =>
  ⟨encode_length c _, by simp [Instr.length, Instr.op, Op.operandWords, Op.format, maxWords], rfl, opOfHead_head _⟩

theorem fin : Statement .fin := fun c =>
  ⟨encode_length c _, by simp [Instr.length, Instr.op, Op.operandWords, Op.format, maxWords], rfl, opOfHead_head _⟩

theorem ldh (val : Word) : Statement (.ldh val) := fun c =>
  ⟨encode_length c _, by simp [Instr.length, Instr.op, Op.operandWords, Op.format, maxWords]; omega, rfl, opOfHead_head _⟩

end Sys2Proof.Laws.Length
end

