-- ==== Sys2Proof/Tests/Slice0.lean ====
section
/-! SUPPORT. Tests of the model: ill-formed terms that are refused, words written out from spec/95_test_vectors.md, one
step at a time on small states, and for every obligation a concrete case that meets its hypotheses. -/

namespace Sys2Proof.Tests

open Sys2Proof Sys2Proof.Machine

/-! ## Small states -/

def w64le : Config := ⟨.w64, .le, 0x9e3779b9⟩
def w64be : Config := ⟨.w64, .be, 0x9e3779b9⟩
def w32le : Config := ⟨.w32, .le, 0x9e3779b9⟩
def w32be : Config := ⟨.w32, .be, 0x9e3779b9⟩

/-- Bytes from an address on; none of them may be 0. -/
def cells : Nat → List Byte → Memory
  | _, [] => []
  | a, b :: bs => (a, b) :: cells (a + 1) bs

/-- A block after reset with the given `H`. -/
def holding (c : Config) (h : Word) : State := { State.resetFor c with h := h }

/-- A block after reset to which words have been sent. -/
def sent (c : Config) (ws : List CmdWord) : State := { State.resetFor c with prog := ws }

/-- A block after reset over a memory with bytes at one place. -/
def storing (c : Config) (a : Nat) (bs : List Byte) : State := { State.resetFor c with mem := cells a bs }

/-- A block in the faulted state, with one result and words still to come. -/
def faulted : State :=
  { sent w64le [0x00000104, 4, 1, 4] with err := true, cause := .illegalCommand, ci := 1, res := [7] }

/-- A block that has received the head of a `MIXW` and waits. -/
def waiting : State := { sent w64le [2] with cb := [2] }

/-- "hello world" at 0x4000, and address 0x4009 answers `error` (95_test_vectors.md section 7, X-8). -/
def helloState : State :=
  { storing w64le 0x4000 [0x68, 0x65, 0x6c, 0x6c, 0x6f, 0x20, 0x77, 0x6f, 0x72, 0x6c, 0x64] with memErr := [0x4009] }

/-- The next state of an outcome, if it is one. -/
def after : StepOutcome → Option State
  | .next t => some t
  | .fault _ => none
  | .refused _ => none

/-! ## Ill-formed terms and configurations (30_encoding.md R68, 00_scope.md R11, R8) -/

theorem test_wf_refuses_wide_mixw : Instr.wf w32le (.mixw 0x100000000) = false := by decide
theorem test_wf_refuses_wide_ldh : Instr.wf w32le (.ldh 0x100000000) = false := by decide
theorem test_wf_refuses_wide_cons_addr : Instr.wf w32le (.cons 0x100000000 1) = false := by decide
theorem test_wf_refuses_wide_cons_len : Instr.wf w32le (.cons 1 0x100000000) = false := by decide
theorem test_wf_accepts_the_largest :
    Instr.wf w32le (.cons 0xffffffff 0xffffffff) = true ∧ Instr.wf w64le (.mixw 0xffffffffffffffff) = true ∧
    Instr.wf w32le .init = true ∧ Instr.wf w32le .fin = true := by decide
theorem test_build_refuses :
    Config.build 16 .le 0x9e3779b9 = none ∧ Config.build 128 .be 0x9e3779b9 = none ∧ Config.build 8 .le 1 = none ∧
    Config.build 32 .le 0x9e3779b8 = none := by decide
theorem test_build_accepts :
    Config.build 32 .be 0x9e3779b9 = some w32be ∧ (Config.build 64 .le 1).isSome = true := by decide
theorem test_config_name : w64le.name = "RXM-W64-LE" ∧ w32be.name = "RXM-W32-BE" := by decide

/-! ## Encodings (95_test_vectors.md section 6) -/

theorem test_opcode_rows_exclude_each_other :
    opcodeMap.Pairwise fun a b => a.mask &&& b.mask &&& (a.matchWord ^^^ b.matchWord) ≠ 0 := by decide

theorem test_decode_init : decode w64le [0x00000001] = .instr .init [] ∧ decode w32be [0x00000001] = .instr .init [] := by
  decide
theorem test_decode_mixw :
    decode w64le [0x00000002, 0x55667788, 0x11223344] = .instr (.mixw 0x1122334455667788) [] ∧
    decode w32le [0x00000002, 0x11223344] = .instr (.mixw 0x11223344) [] := by decide
theorem test_decode_cons :
    decode w64be [0x00000003, 0x3456789a, 0x00000012, 0x00000001, 0x00000001] =
      .instr (.cons 0x123456789a 0x100000001) [] ∧
    decode w32le [0x00000003, 0x00001000, 0x00000008] = .instr (.cons 0x1000 8) [] := by decide
theorem test_decode_fin : decode w64le [0x00000004, 9] = .instr .fin [9] := by decide
theorem test_decode_ldh :
    decode w64le [0x00000005, 0xdeadbeef, 0x00000000] = .instr (.ldh 0xdeadbeef) [] ∧
    decode w32le [0x00000005, 0xdeadbeef] = .instr (.ldh 0xdeadbeef) [] := by decide
/-- 95_test_vectors.md section 6.2. -/
theorem test_decode_illegal :
    decode w64le [0x00000000] = .illegal 0x00000000 ∧
    decode w64le [0x00000006] = .illegal 0x00000006 ∧
    decode w64le [0x000000ff] = .illegal 0x000000ff ∧
    decode w64le [0xffffffff] = .illegal 0xffffffff ∧
    decode w64le [0x00000104] = .illegal 0x00000104 ∧
    decode w64le [0x80000001] = .illegal 0x80000001 ∧
    decode w64le [0x01000000] = .illegal 0x01000000 := by decide
/-- 95_test_vectors.md section 6.3, third row: a `W = 64` stream sent to a `W = 32` block. -/
theorem test_decode_wrong_width :
    decode w32le [0x00000003, 0x00001000, 0x00000000, 0x00000008] = .instr (.cons 0x1000 0) [0x00000008] ∧
    decode w32le [0x00000008, 0x00000000] = .illegal 0x00000008 := by decide
theorem test_encode :
    encode w64le (.cons 0x1000 8) = [0x00000003, 0x00001000, 0x00000000, 0x00000008, 0x00000000] ∧
    encode w32le (.cons 0x1000 8) = [0x00000003, 0x00001000, 0x00000008] := by decide
theorem test_table_words :
    decodeTableWord 32 1 = some .init ∧ decodeTableWord 32 2 = some (.mixw 0) ∧
    decodeTableWord 32 3 = some (.cons 0 0) ∧ decodeTableWord 32 4 = some .fin ∧
    decodeTableWord 32 5 = some (.ldh 0) ∧ decodeTableWord 32 0 = none ∧ decodeTableWord 32 0x104 = none := by decide
/-- A word of the table placed at the fetch is the one the next step runs (95_test_vectors.md F-6 has the operand). -/
theorem test_fetch_word :
    (after (step (State.reset.withFetchWord 96 0x010203040506070800000002))).map (·.h) = some 0xc0128e204fd867a8 ∧
    (after (step (State.reset.withFetchWord 32 4))).map (·.res) = some [0] := by decide

/-- The assembler's lines of 95_test_vectors.md section 6.1 and 30_encoding.md R68. -/
theorem test_assemble_text :
    (parseLine "  CONS 0x1000, 8   ; a comment".toList).bind (assembleLine w64le) =
      some [0x00000003, 0x00001000, 0x00000000, 0x00000008, 0x00000000] ∧
    (parseLine "mixw 0x1122334455667788".toList).bind (assembleLine w32le) = none ∧
    (parseLine "hash 0x2003, 11".toList).bind (assembleLine w32le) =
      some [0x00000001, 0x00000003, 0x00002003, 0x0000000b, 0x00000004] := by decide
theorem test_disassemble :
    (disassemble w32le [1, 3, 0x1000, 0, 8, 0, 4]).map (listingText w32le) =
      ["init", "cons 0x00001000, 0x00000000", ".illegal 0x00000008"] := by decide

/-! ## One step of each command (95_test_vectors.md sections 3, 4, 5 and 7) -/

/-- F-1, F-1'. -/
theorem test_init :
    (after (exec .init (holding w64le 0xc0128e204fd867a8))).map (·.h) = some 0 ∧
    (after (exec .init (holding w32le 0xdc455299))).map (·.h) = some 0 := by decide
/-- F-6, F-8. -/
theorem test_mixw_64 :
    (after (exec (.mixw 0x0102030405060708) (holding w64le 0))).map (·.h) = some 0xc0128e204fd867a8 ∧
    (after (exec (.mixw 0xfedcba9876543210) (holding w64le 0x0123456789abcdef))).map (·.h) =
      some 0x5e3dd96e8f0426b0 := by decide
/-- F-9, F-7. -/
theorem test_mixw_32 :
    (after (exec (.mixw 0x76543210) (holding w32le 0x89abcdef))).map (·.h) = some 0xdc455299 ∧
    (after (exec (.mixw 0x05060708) (holding w32be 0))).map (·.h) = some 0xed65dcc8 := by decide
/-- F-11, F-12. -/
theorem test_ldh :
    (after (exec (.ldh 0x0123456789abcdef) (holding w64le 9))).map (·.h) = some 0x0123456789abcdef ∧
    (after (exec (.ldh 0x89abcdef) (holding w32le 9))).map (·.h) = some 0x89abcdef := by decide
/-- F-2's first `fin`, F-5. -/
theorem test_fin :
    (after (exec .fin (holding w64le 0xc0128e204fd867a8))).map (fun t => (t.h, t.res)) =
      some (0xc0128e204fd867a8, [0xc0128e204fd867a8]) ∧
    (after (exec .fin (holding w32le 0xffffffff))).map (·.res) = some [0x00000000ffffffff] := by decide
/-- Section 5.1: lengths 7 and 9 of the corpus, `W = 64`, both byte orders. -/
theorem test_cons_64 :
    (after (exec (.cons 0x101 7) (storing w64le 0x101 [1, 2, 3, 4, 5, 6, 7]))).map
      (fun t => (t.h, t.reads)) = some (0xb72b4fe2838adfe1, [⟨0x101, 4⟩, ⟨0x105, 2⟩, ⟨0x107, 1⟩]) ∧
    (after (exec (.cons 0x100 9) (storing w64be 0x100 [1, 2, 3, 4, 5, 6, 7, 8, 9]))).map (·.h) =
      some 0x6a12ced2c35f4ce5 := by decide
/-- Section 5.1: length 7, `W = 32`; X-3: a slice that ends at the top of the address space. -/
theorem test_cons_32 :
    (after (exec (.cons 0x100 7) (storing w32be 0x100 [1, 2, 3, 4, 5, 6, 7]))).map (·.h) = some 0xf578069b ∧
    (after (exec (.cons 0xfffffffc 4) (storing w32le 0xfffffffc [1, 2, 3, 4]))).map
      (fun t => (t.h, t.err, t.reads)) = some (0x5e55ebb9, false, [⟨0xfffffffc, 4⟩]) := by decide
/-- X-4, X-5, X-6. -/
theorem test_slice_wrap :
    (after (exec (.cons 0xfffffffc 5) (holding w32le 0))).map (fun t => (t.err, t.cause, t.reads)) =
      some (true, .sliceWrap, []) ∧
    (after (exec (.cons 0xffffffff 0) (holding w32le 0))).map (fun t => (t.err, t.h, t.reads)) =
      some (false, 0, []) ∧
    (after (exec (.cons 0xfffffffffffffff8 9) (holding w64le 0))).map (·.cause) = some .sliceWrap := by decide
/-- X-8, X-9, X-10. -/
theorem test_mem_fault :
    (after (exec (.cons 0x4000 11) helloState)).map (fun t => (t.err, t.cause, t.reads)) =
      some (true, .memFault, [⟨0x4000, 8⟩, ⟨0x4008, 2⟩]) ∧
    (after (exec (.cons 0x4000 9) helloState)).map (fun t => (t.err, t.h)) = some (false, 0x3d84f02bd17fa630) ∧
    (after (exec (.cons 0x4009 0) helloState)).map (fun t => (t.err, t.reads)) = some (false, []) := by decide
/-- X-1: the illegal head word, and the discarding of the word after it. -/
theorem test_illegal_command :
    (after (step (sent w64le [0x00000104, 4]))).map (fun t => (t.err, t.cause, causePort t, t.ci)) =
      some (true, .illegalCommand, 1, 1) ∧
    (after (step faulted)).map (fun t => (t.res, t.ci)) = some ([7], 2) := by decide
/-- X-12. -/
theorem test_reset_after_fault :
    (fun t => (t.h, t.err, t.cause, t.res, t.ci)) (assertReset faulted) = (0, false, .noFault, [], 0) := by decide

/-- R149: a read of X-8 that failed, a reset, and the failing chunk read again with its address answered. -/
theorem test_transient_error :
    ((after (exec (.cons 0x4000 11) helloState)).bind fun t =>
      (after (exec (.cons 0x4008 2) (serveAddress 0x4009 (assertReset t)))).map fun u => (t.err, u.err, u.memErr)) =
      some (true, false, []) ∧
    (failAddress 0x4009 helloState).memErr = [0x4009] ∧ (serveAddress 0x4008 helloState).memErr = [0x4009] := by decide
/-- X-2 up to its fault, with the first result taken by the host: the outcome lists it all the same (R148). -/
theorem test_outcome_lists_taken_results :
    outcomeOf (State.resetFor w32le)
        (takeResult { faulted with cfg := w32le, res := [0x9e3779b9] }).2 =
      some (.faulted .illegalCommand [0x9e3779b9]) ∧
    outcomeOf (State.resetFor w64le) waiting = none := by decide
/-- F-14 as a program from a start state with `H` set and a result behind it; F-2 for the result. -/
theorem test_program_start_state :
    (after (runProgram
      { cfg := w64le, words := [2, 2, 0, 4], mem := [], memErr := [],
        start := { holding w64le 0x517cc1b727220a95 with res := [7] } })).map
      (fun u => (u.h, produced u, u.ci)) = some (0x6a4be67ff98fabc8, [7, 0x6a4be67ff98fabc8], 4) := by decide
/-- R29, R126: a faulted source delivers nothing to copy (log entry 13). -/
theorem test_copy_from_faulted_source : copyAccumulator faulted (holding w64le 9) = none := by decide

/-- R83, log entry 13: between widths the destination's `W` counts, both ways. -/
theorem test_copy_between_widths :
    (copyAccumulator (holding w64le 0xc0128e204fd867a8) (holding w32le 9)).map (·.2.h) = some 0x4fd867a8 ∧
    (copyAccumulator (holding w32le 0xdc455299) (holding w64be 9)).map (·.2.h) = some 0xdc455299 := by decide

/-! ## The hypotheses of the obligations can be met -/

theorem witness_ResetMeetsInvariant : ∀ c ∈ [w64le, w64be, w32le, w32be], c.wf = true := by decide

theorem waiting_inv : Inv waiting :=
  ⟨by decide, by decide, by decide, by simp [waiting, sent, State.resetFor, Config.W, w64le],
    by simp [waiting, sent, State.resetFor, Config.W, w64le], ⟨2, by decide, rfl⟩, by decide, by decide, by decide, by decide,
    by decide, by decide⟩

/-- The last operand word of a `CONS` over the top of the address space, with a result and a read behind it. -/
def lastWord : State :=
  { storing w32le 0xfffffffc [1, 2, 3, 4] with
    prog := [4, 3, 0xfffffffc, 4], ci := 1, cb := [3, 0xfffffffc], res := [0], taken := [5], reads := [⟨8, 1⟩] }

theorem lastWord_inv : Inv lastWord :=
  ⟨by decide, by decide, by decide, by simp [lastWord, storing, State.resetFor, Config.W, w32le],
    by simp [lastWord, storing, State.resetFor, Config.W, w32le], ⟨1, by decide, rfl⟩, by decide, by decide, by decide, by decide,
    by decide, by decide⟩

theorem faulted_inv : Inv faulted :=
  ⟨by decide, by decide, by decide, by simp [faulted, sent, State.resetFor, Config.W, w64le],
    by simp [faulted, sent, State.resetFor, Config.W, w64le], ⟨1, by decide, rfl⟩, by decide, by decide, by decide, by decide,
    by decide, by decide⟩

theorem witness_StepKeepsInvariant :
    (∃ t, Inv lastWord ∧ step lastWord = .next t ∧ t.h = 0x5e55ebb9) ∧ (∃ t, Inv faulted ∧ step faulted = .next t) ∧
    ∃ t, Inv waiting ∧ step waiting = .next t :=
  ⟨⟨_, lastWord_inv, rfl, by decide⟩, ⟨_, faulted_inv, rfl⟩, _, waiting_inv, rfl⟩

theorem witness_HostMovesKeepInvariant : Inv waiting ∧ Inv faulted := ⟨waiting_inv, faulted_inv⟩

theorem witness_StepAlwaysAnswersOverOrdinaryMemory : helloState.memDev = [] := by decide

theorem witness_StepNeverWritesMemory : ∃ t, step lastWord = .next t ∧ lastWord.mem ≠ [] := ⟨_, rfl, by decide⟩

theorem witness_OnlyFinAppendsResults :
    (∃ t, step (sent w64le [4]) = .next t ∧ t.res = [0]) ∧ ∃ t, step (sent w64le [1]) = .next t ∧ t.res = [] :=
  ⟨⟨_, rfl, by decide⟩, _, rfl, by decide⟩

theorem witness_DecodeEncodeRoundTrip :
    Instr.wf w32le (.cons 0xffffffff 0xffffffff) = true ∧ Instr.wf w64be (.ldh 0xffffffffffffffff) = true := by decide

theorem witness_DecodedWordsAreTheEncoding :
    decode w32le [3, 0xffffffff, 0xffffffff, 4] = .instr (.cons 0xffffffff 0xffffffff) [4] := by decide

/-- The two clauses at the word on which a `CONS` is complete and the one before it. -/
theorem witness_CommandLengthFromHead :
    Op.cons.operandWords w64le ≤ [0, 0, 0, (0 : CmdWord)].length ∧
    [0, 0, (0 : CmdWord)].length < Op.cons.operandWords w64le ∧ w32le.width = .w32 ∧ w64le.width = .w64 := by decide

theorem witness_StepRunsDecodedInstruction :
    lastWord.err = false ∧ lastWord.slice = none ∧ lastWord.prog[lastWord.ci + lastWord.cb.length]? = some 4 ∧
    decode lastWord.cfg (lastWord.cb ++ [4]) = .instr (.cons 0xfffffffc 4) [] := by decide

theorem witness_StepCollectsOperandWords :
    (sent w64le [2, 1]).err = false ∧ (sent w64le [2, 1]).slice = none ∧
    (sent w64le [2, 1]).prog[(sent w64le [2, 1]).ci + (sent w64le [2, 1]).cb.length]? = some 2 ∧
    decode (sent w64le [2, 1]).cfg ((sent w64le [2, 1]).cb ++ [2]) = .more 2 := by decide

theorem witness_IllegalHeadWordFaults :
    (sent w32be [0x104]).err = false ∧ (sent w32be [0x104]).slice = none ∧ (sent w32be [0x104]).cb = [] ∧
    (sent w32be [0x104]).prog[(sent w32be [0x104]).ci]? = some 0x104 ∧
    (∀ w ∈ ([0, 6, 0x00000104, 0xffffffff] : List CmdWord), w ∉ ([1, 2, 3, 4, 5] : List CmdWord)) := by
  simp [sent, State.resetFor]

theorem witness_OperandWordsAreNeverIllegal :
    ∃ t, Inv lastWord ∧ lastWord.cb ≠ [] ∧ step lastWord = .next t := ⟨_, lastWord_inv, by decide, rfl⟩

theorem witness_FaultedBlockOnlyDiscards : faulted.err = true ∧ nextWord faulted = some 4 := by decide

theorem witness_NoCommandExecutesWhenFaulted : faulted.err = true := by decide

theorem witness_OnlyResetLeavesFaultedState : ∃ t, faulted.err = true ∧ step faulted = .next t := ⟨_, by decide, rfl⟩

/-- A waiting block at each width: one more word completes the command of the second and not that of the first. -/
theorem witness_PartialCommandWaits :
    (Waiting waiting ∧ waiting.ci + waiting.cb.length ≤ waiting.prog.length ∧ Inv waiting ∧
      decode waiting.cfg (waiting.cb ++ [1]) = .more 1) ∧
    Waiting { sent w32le [5] with cb := [5] } ∧
    decode w32le ([5] ++ [1]) = .instr (.ldh 1) [] ∧ (0 + [(5 : CmdWord)].length ≤ [(5 : CmdWord)].length) :=
  ⟨⟨⟨rfl, rfl, by decide, rfl⟩, by decide, waiting_inv, by decide⟩, ⟨rfl, rfl, by decide, rfl⟩, by decide, by decide⟩

/-- 95_test_vectors.md section 6.3, the first row's words. -/
theorem witness_FeedingCommandsIsExecutingThem :
    (sent w32le [1, 2, 4, 2, 1, 4]).slice = none ∧ (sent w32le [1, 2, 4, 2, 1, 4]).cb = [] ∧
    (∀ i ∈ [Instr.init, .mixw 4, .mixw 1, .fin], i.wf w32le = true) ∧
    (sent w32le [1, 2, 4, 2, 1, 4]).prog.drop 0 =
      [Instr.init, .mixw 4, .mixw 1, .fin].flatMap (encode w32le) ++ [] := by decide

theorem witness_InitSetsHToZero : (holding w64le 5).err = false ∧ faulted.err = true := by decide

theorem witness_MixwMixesTheValue : (holding w32le 5).err = false := by decide

theorem witness_MixIsRotateXorMultiply :
    (0xffffffff : Word).toNat < 2 ^ w32le.W ∧ (0xffffffffffffffff : Word).toNat < 2 ^ w64be.W := by decide

theorem witness_LdhLoadsTheWord :
    (holding w32le 5).err = false ∧ (0xffffffff : Word).toNat < 2 ^ (holding w32le 5).cfg.W := by decide

theorem witness_FinAppendsTheHash :
    (holding w32le 5).err = false ∧ (holding w32le 5).cfg.width = .w32 ∧ (holding w64le 5).cfg.width = .w64 ∧
    faulted.err = true := by decide

theorem witness_FinIsNonDestructive :
    (∃ t, exec .fin (holding w64le 5) = .next t) ∧ (holding w64le 5).err = false ∧
    ∃ t, execAll ([.mixw 1] ++ .fin :: [.mixw 2, .fin]) (holding w64le 5) = .next t :=
  ⟨⟨_, rfl⟩, rfl, _, rfl⟩

theorem witness_FinThenLdhCopiesTheAccumulator :
    (holding w32le 5).err = false ∧ (holding w32be 9).err = false ∧
    (holding w32le 5).cfg.width = (holding w32be 9).cfg.width ∧ faulted.err = true := by decide

/-- A block over ordinary, readable memory. -/
theorem readable_of_nil {s : State} (h : s.memErr = []) (a n : Word) : SliceReadable s a n := by
  intro x _ _; simp [h]

theorem ordinary_of_nil {s : State} (h : s.memDev = []) (a n : Word) : SliceOrdinary s a n := by
  intro x _ _; simp [h]

/-- A slice that ends at the last byte of the address space, and an empty slice at its end. -/
theorem witness_ConsFoldsTheSlice :
    lastWord.err = false ∧
    (SliceInSpace lastWord 0xfffffffc 4 ∧ SliceReadable lastWord 0xfffffffc 4 ∧ SliceOrdinary lastWord 0xfffffffc 4) ∧
    SliceInSpace lastWord 0xffffffff 0 ∧ SliceReadable lastWord 0xffffffff 0 ∧ SliceOrdinary lastWord 0xffffffff 0 :=
  ⟨rfl, ⟨.inr (by decide), readable_of_nil rfl _ _, ordinary_of_nil rfl _ _⟩,
    .inl rfl, readable_of_nil rfl _ _, ordinary_of_nil rfl _ _⟩

theorem witness_ConsReadsOnlyItsSlice :
    helloState.err = false ∧ (∃ t, exec (.cons 0x4000 9) helloState = .next t ∧ t.reads ≠ []) ∧
    ∃ t, exec (.cons 0x4000 11) helloState = .next t ∧ t.err = true :=
  ⟨rfl, ⟨_, rfl, by decide⟩, _, rfl, by decide⟩

/-- One byte past the top, at both widths. -/
theorem witness_ConsSliceWrapFaults :
    ((holding w32le 0).err = false ∧ 0 < (5 : Word).toNat ∧
      2 ^ (holding w32le 0).cfg.W < (0xfffffffc : Word).toNat + (5 : Word).toNat) ∧
    (holding w64le 0).err = false ∧ 0 < (2 : Word).toNat ∧
      2 ^ (holding w64le 0).cfg.W < (0xffffffffffffffff : Word).toNat + (2 : Word).toNat := by decide

/-- With the failing address inside the slice, and just outside it. -/
theorem witness_ConsMemFaultExactly :
    helloState.err = false ∧ helloState.cause = .noFault ∧
    (SliceInSpace helloState 0x4000 11 ∧ SliceOrdinary helloState 0x4000 11 ∧ ¬ SliceReadable helloState 0x4000 11) ∧
    SliceInSpace helloState 0x4000 9 ∧ SliceOrdinary helloState 0x4000 9 ∧ SliceReadable helloState 0x4000 9 :=
  ⟨rfl, rfl, ⟨.inr (by decide), ordinary_of_nil rfl _ _, fun h => h 0x4009 (by decide) (by decide) (by decide)⟩,
    .inr (by decide), ordinary_of_nil rfl _ _, fun x _ h hx => by simp [helloState] at hx h; omega⟩

/-- A side-effect address on the last byte of the slice. -/
theorem witness_ConsRefusesSideEffectMemory :
    ({ helloState with memDev := [0x400a] } : State).err = false ∧
    SliceInSpace { helloState with memDev := [0x400a] } 0x4000 11 ∧
    ¬ SliceOrdinary { helloState with memDev := [0x400a] } 0x4000 11 :=
  ⟨rfl, .inr (by decide), fun h => h 0x400a (by decide) (by decide) (by decide)⟩

/-- The same three bytes at an odd and at an even address. -/
theorem witness_ConsDependsOnlyOnBytes :
    let s1 := storing w64le 0x2003 [1, 2, 3]
    let s2 := storing w64le 0x5000 [1, 2, 3]
    s1.err = false ∧ s2.err = false ∧ s1.cfg = s2.cfg ∧ getH s1 = getH s2 ∧
    SliceInSpace s1 0x2003 3 ∧ SliceReadable s1 0x2003 3 ∧ SliceOrdinary s1 0x2003 3 ∧
    SliceInSpace s2 0x5000 3 ∧ SliceReadable s2 0x5000 3 ∧ SliceOrdinary s2 0x5000 3 ∧
    sliceBytes s1 0x2003 3 = sliceBytes s2 0x5000 3 :=
  ⟨rfl, rfl, rfl, rfl, .inr (by decide), readable_of_nil rfl _ _, ordinary_of_nil rfl _ _, .inr (by decide),
    readable_of_nil rfl _ _, ordinary_of_nil rfl _ _, by decide⟩

theorem witness_OneShotHash :
    lastWord.err = false ∧ SliceInSpace lastWord 0xfffffffc 4 ∧ SliceReadable lastWord 0xfffffffc 4 ∧
    SliceOrdinary lastWord 0xfffffffc 4 ∧ getH lastWord = 0 :=
  ⟨rfl, .inr (by decide), readable_of_nil rfl _ _, ordinary_of_nil rfl _ _, by decide⟩

theorem witness_HashRegisterCommandsFrame :
    (∃ t, exec .init (holding w64le 5) = .next t) ∧ (∃ t, exec (.mixw 5) (holding w32le 5) = .next t) ∧
    ∃ t, exec (.ldh 6) faulted = .next t := ⟨⟨_, rfl⟩, ⟨_, rfl⟩, _, rfl⟩

theorem witness_FinFrame : ∃ t, exec .fin (holding w64le 5) = .next t := ⟨_, rfl⟩

/-- The three ways a `CONS` can go, and the empty slice. -/
theorem witness_ConsFrame :
    (∃ t, exec (.cons 0x4000 9) helloState = .next t ∧ t.err = false) ∧
    (∃ t, exec (.cons 0x4000 11) helloState = .next t ∧ t.cause = .memFault) ∧
    (∃ t, exec (.cons 0xffffffffffffffff 2) helloState = .next t ∧ t.cause = .sliceWrap) ∧
    ∃ t, exec (.cons 0x4009 0) helloState = .next t :=
  ⟨⟨_, rfl, by decide⟩, ⟨_, rfl, by decide⟩, ⟨_, rfl, by decide⟩, _, rfl⟩

theorem witness_MixIsBijective :
    w32le.wf = true ∧ (0xffffffff : Word).toNat < 2 ^ w32le.W ∧ mix w32le 7 0xffffffff = mix w32le 7 0xffffffff ∧
    mix w32le 0xffffffff 7 = mix w32le 0xffffffff 7 := by decide

/-- The two clauses at the word size and one below it. -/
theorem witness_PeelIsTheLoop : w64le.WB ≤ 8 ∧ 7 < w64le.WB ∧ w32le.WB ≤ 4 ∧ 3 < w32le.WB := by decide

theorem witness_MixCount :
    (lastWord.err = false ∧ SliceInSpace lastWord 0xfffffffc 4 ∧ SliceReadable lastWord 0xfffffffc 4 ∧
      SliceOrdinary lastWord 0xfffffffc 4) ∧ ([1, 2] : List Byte).length = 2 ∧ w64le.width = .w64 ∧ w32le.width = .w32 :=
  ⟨⟨rfl, .inr (by decide), readable_of_nil rfl _ _, ordinary_of_nil rfl _ _⟩, rfl, rfl, rfl⟩

theorem witness_ChunkValueByteOrder :
    ([1, 2, 3, 4, 5, 6, 7, 8] : List Byte).length ≤ 8 ∧ w64le.endian = .le ∧ w32be.endian = .be := by decide

theorem witness_EmptyInputHashesToZero : (holding w64le 5).err = false := by decide

theorem witness_ZeroExtensionCollides : w64le.endian = .le ∧ w64le.width = .w64 ∧ w32be.endian = .be := by decide

/-- A word and a two-byte chunk, each the same list backwards (95_test_vectors.md section 5.4 has eleven bytes a5). -/
theorem witness_PalindromicChunksIgnoreByteOrder :
    ∀ ch ∈ cut (peel ⟨.w32, .le, 0x9e3779b9⟩ ([1, 2, 2, 1, 3, 3] : List Byte).length) [1, 2, 2, 1, 3, 3],
      ch.reverse = ch := by decide

theorem witness_WordBoundaryLengths : w64le.width = .w64 ∧ w32be.width = .w32 := by decide

/-- 43_properties.md R108: 8, 4 and 2 bytes of 14 are safe for `W = 64`; 4 and 10 are not. -/
theorem witness_SplitKeepsChunksIffOnBoundary :
    pieceChunks w64le 0 [8, 4, 2] = chunkPairs 0 (peel w64le [8, 4, 2].sum) ∧
    (∀ j, j ≤ [8, 4, 2].length → ([8, 4, 2].take j).sum ∈ bnd w64le [8, 4, 2].sum) ∧
    pieceChunks w64le 0 [4, 10] ≠ chunkPairs 0 (peel w64le [4, 10].sum) ∧
    bnd w64le 14 = [0, 8, 12, 14] ∧ bnd w32le 14 = [0, 4, 8, 12, 14] := by decide

theorem witness_SplitOnBoundaryKeepsTheFold :
    ∀ j, j ≤ ([[1, 2, 3, 4], [], [5, 6]] : List (List Byte)).length →
      ((([[1, 2, 3, 4], [], [5, 6]] : List (List Byte)).take j).map List.length).sum ∈
        bnd w64le ([[1, 2, 3, 4], [], [5, 6]] : List (List Byte)).flatten.length := by decide

theorem witness_WordMultipleSplitsAreSafe : ([1, 2, 3, 4] : List Byte).length % w32le.WB = 0 := by decide

theorem witness_ResultsLeaveInOrder :
    ({ holding w64le 5 with res := [7, 8] } : State).err = false ∧
    ({ holding w64le 5 with res := [7, 8] } : State).res = 7 :: [8] ∧ (holding w64le 5).err = false ∧
    (holding w64le 5).res = [] := by decide

theorem witness_InstancesShareNothing :
    ∃ ts, stepInstance 1 [waiting, sent w32le [4], faulted] = .next ts ∧
      [waiting, sent w32le [4], faulted][1]? = some (sent w32le [4]) := ⟨_, rfl, rfl⟩

theorem witness_UnsupportedConfigurationsAreRefused : Config.build 32 .le 0x9e3779b9 = some w32le := by decide

theorem witness_PseudoCommandsExpand : 0xffffffff < 2 ^ w32le.W ∧ 0 < 2 ^ w32le.W := by decide

/-- A start state that is not the reset state, with a result the host has taken and one it has not. -/
def oneFin : Program :=
  { cfg := w32le, words := [2, 4, 4], mem := [], memErr := [],
    start := { holding w32le 5 with res := [7], taken := [6] } }

theorem witness_ProgramRunOutcome :
    (oneFin.start.slice = none ∧ oneFin.start.cb = [] ∧ (∀ i ∈ [Instr.mixw 4, .fin], i.wf oneFin.cfg = true) ∧
      oneFin.words = [Instr.mixw 4, .fin].flatMap (encode oneFin.cfg) ∧
      ∃ t, execAll [.mixw 4, .fin] (loadProgram oneFin) = .next t ∧ t.err = false) ∧ Waiting waiting :=
  ⟨⟨rfl, rfl, by decide, by decide, _, rfl, rfl⟩, rfl, rfl, by decide, rfl⟩

theorem witness_DisassemblyListsTheCommands :
    (∀ i ∈ [Instr.init, .cons 0x1000 0], i.wf w32le = true) ∧ (8 : CmdWord) ∉ ([1, 2, 3, 4, 5] : List CmdWord) := by
  decide

end Sys2Proof.Tests
end

section
/-! PROOF. The configuration check of 00_scope.md R11 and R8. -/

namespace Sys2Proof

/-- R8: a configuration is legal exactly when its `K32` is odd. -/
theorem Config.wf_iff_odd (c : Config) : c.wf = true ↔ c.k32.toNat % 2 = 1 := by
  rw [Config.wf, ← BitVec.testBit_toNat, Nat.testBit_zero, decide_eq_true_iff]

/-- R7: the words of a configuration have 32 or 64 bits. -/
theorem Config.W_eq_32_or_64 (c : Config) : c.W = 32 ∨ c.W = 64 := by
  obtain ⟨width, e, k⟩ := c
  cases width
  case w32 => exact .inl rfl
  case w64 => exact .inr rfl

/-- R11: `Config.build` answers the legal configuration with the parameters asked for, and nothing else. -/
theorem Config.build_eq_some_iff (w : Nat) (e : Endian) (k : BitVec 32) (c : Config) :
    Config.build w e k = some c ↔ c.W = w ∧ c.endian = e ∧ c.k32 = k ∧ c.wf = true := by
  constructor
  · intro h
    unfold Config.build at h
    split at h
    next hodd =>
      split at h
      next hw => cases h; exact ⟨hw.symm, rfl, rfl, hodd⟩
      next =>
        split at h
        next hw => cases h; exact ⟨hw.symm, rfl, rfl, hodd⟩
        next => cases h
    next => cases h
  · rintro ⟨rfl, rfl, rfl, hwf⟩
    obtain ⟨width, e, k⟩ := c
    have hodd : k.getLsbD 0 = true := hwf
    cases width
    case w32 => simp [Config.build, Config.W, hodd]
    case w64 => simp [Config.build, Config.W, hodd]

/-- Both widths of R7 are the `W` of a configuration with any byte order and any `K32`. -/
theorem Config.exists_of_W {w : Nat} (hw : w = 32 ∨ w = 64) (e : Endian) (k : BitVec 32) :
    ∃ c : Config, c.W = w ∧ c.endian = e ∧ c.k32 = k := by
  obtain rfl | rfl := hw
  · exact ⟨⟨.w32, e, k⟩, rfl, rfl, rfl⟩
  · exact ⟨⟨.w64, e, k⟩, rfl, rfl, rfl⟩

/-- Settles O56, by the configurations `Config.build` answers: those of `Config.build_eq_some_iff`. -/
theorem unsupportedConfigurationsAreRefused : Obligations.UnsupportedConfigurationsAreRefused := by
  intro w e k
  refine ⟨⟨?_, ?_⟩, fun c => (Config.build_eq_some_iff w e k c).1⟩
  · rintro ⟨c, hc⟩
    obtain ⟨rfl, -, rfl, hwf⟩ := (Config.build_eq_some_iff w e k c).1 hc
    exact ⟨c.W_eq_32_or_64, c.wf_iff_odd.1 hwf⟩
  · rintro ⟨hw, hodd⟩
    obtain ⟨c, hW, he, rfl⟩ := Config.exists_of_W hw e k
    exact ⟨c, (Config.build_eq_some_iff w e _ c).2 ⟨hW, he, rfl, c.wf_iff_odd.2 hodd⟩⟩

end Sys2Proof
end

section
/-! PROOF. Rules for one command, one word and one memory-free operation: what `exec`, `acceptWord`, `takeResult`
and `stepInstance` answer, said once for the proofs about the state. -/

namespace Sys2Proof.Machine

/-! Executing one command (40_mix.md R81 to R83, 42_finalize.md R100) -/

/-- R126: a faulted block discards every command. -/
theorem exec_faulted {s : State} (i : Instr) (he : s.err = true) : exec i s = .next s := by
  cases i <;> simp [exec, execInit, execMixw, execCons, execFin, execLdh, he]

theorem exec_init_running {s : State} (he : s.err = false) : exec .init s = .next (setH 0 s) := by
  simp [exec, execInit, he]

theorem exec_mixw_running {s : State} (val : Word) (he : s.err = false) :
    exec (.mixw val) s = .next (setH (mix s.cfg (getH s) val) s) := by
  simp [exec, execMixw, he]

theorem exec_fin_running {s : State} (he : s.err = false) : exec .fin s = .next (pushResult (getH s) s) := by
  simp [exec, execFin, he]

theorem exec_ldh_running {s : State} (val : Word) (he : s.err = false) :
    exec (.ldh val) s = .next (setH val s) := by
  simp [exec, execLdh, he]

/-! One word on the command port (30_encoding.md R66) -/

/-- On a running block with no `CONS` in progress a step accepts the next word. -/
theorem step_eq_acceptWord {s : State} {w : CmdWord} (he : s.err = false) (hs : s.slice = none)
    (hw : nextWord s = some w) : step s = acceptWord w s := by
  simp [step, transact, he, hs, hw]

theorem acceptWord_more {s : State} {w : CmdWord} {k : Nat} (hd : decode s.cfg (s.cb ++ [w]) = .more k) :
    acceptWord w s = .next { s with cb := s.cb ++ [w] } := by
  simp [acceptWord, hd]

/-- A word that is still to come lies within the words sent. -/
theorem pos_lt_of_nextWord_ne_none {s : State} (h : nextWord s ≠ none) :
    s.ci + s.cb.length < s.prog.length := by
  simpa [nextWord] using h

/-- A command that is not complete lacks at least one word. -/
theorem pos_of_decode_more {c : Config} {ws : List CmdWord} {k : Nat} (h : decode c ws = .more k) : 0 < k := by
  cases ws with
  | nil => cases h; exact Nat.one_pos
  | cons w ws =>
    obtain ⟨-, hd⟩ | ⟨op, -, hlt, hd⟩ | ⟨op, -, -, hd⟩ := decode_cons_cases c w ws
    · cases hd.symm.trans h
    · cases hd.symm.trans h; omega
    · cases hd.symm.trans h

/-! Taking a result (10_state.md R25) -/

theorem takeResult_of_nil {s : State} (h : s.res = []) : takeResult s = (none, s) := by
  simp [takeResult, h]

theorem takeResult_of_cons {s : State} {r : Result} {rs : List Result} (h : s.res = r :: rs) :
    takeResult s = (some r, { s with res := rs, taken := s.taken ++ [r] }) := by
  simp [takeResult, h]

/-! Several instances (10_state.md R29) -/

/-- Everything that stepping number `k` of the instances can do. -/
theorem stepInstance_cases {k : Nat} {ss ts : Instances} (h : stepInstance k ss = .next ts) :
    (ss[k]? = none ∧ ts = ss) ∨ ∃ s t, ss[k]? = some s ∧ step s = .next t ∧ ts = ss.set k t := by
  unfold stepInstance at h
  split at h
  next hk => cases h; exact .inl ⟨hk, rfl⟩
  next s hk =>
    split at h
    next t hs => cases h; exact .inr ⟨s, t, hk, hs, rfl⟩
    next => cases h
    next => cases h

/-- `wrap` reads nothing of a configuration but its width. -/
theorem wrap_congr_width {c d : Config} (h : c.width = d.width) (v : Word) : wrap c v = wrap d v := by
  simp [wrap, h]

end Sys2Proof.Machine
end

section
/-! PROOF. Every operation that a step or the host makes keeps the invariant (10_state.md R31). -/

namespace Sys2Proof.Machine

/-! The operations of a step -/

theorem inv_setH {s : State} (v : Word) (hs : Inv s) : Inv (setH v s) :=
  { hs with h_lt := wrap_lt _ _ }

theorem inv_pushResult {s : State} {v : Result} (hv : v.toNat < 2 ^ s.cfg.W) (hs : Inv s) :
    Inv (pushResult v s) :=
  { hs with
    res_lt := fun r hr => by
      obtain hr | hr := List.mem_append.1 hr
      · exact hs.res_lt r hr
      · rwa [List.mem_singleton.1 hr] }

theorem inv_raise {s : State} {x : Cause} (hx : x ≠ .noFault) (hs : Inv s) : Inv (raise x s) :=
  { hs with
    h_lt := wrap_lt _ _
    err_iff_cause := by simp [hx]
    cb_more := ⟨1, Nat.one_pos, rfl⟩
    cb_faulted := fun _ => rfl
    pos_le := le_trans (Nat.le_add_right _ _) hs.pos_le
    slice_none := rfl }

theorem inv_advance {s : State} (hw : nextWord s ≠ none) (hs : Inv s) : Inv (advance s) :=
  { hs with
    cb_more := ⟨1, Nat.one_pos, rfl⟩
    cb_faulted := fun _ => rfl
    pos_le := pos_lt_of_nextWord_ne_none hw }

theorem inv_discard {s : State} (he : s.err = true) (hw : nextWord s ≠ none) (hs : Inv s) : Inv (discard s) :=
  { hs with
    pos_le := by simpa [hs.cb_faulted he] using pos_lt_of_nextWord_ne_none hw }

/-- A word that does not complete its command joins `CB`. -/
theorem inv_collect {s : State} {w : CmdWord} {k : Nat} (he : s.err = false) (hw : nextWord s ≠ none)
    (hd : decode s.cfg (s.cb ++ [w]) = .more k) (hs : Inv s) : Inv { s with cb := s.cb ++ [w] } :=
  { hs with
    cb_more := ⟨k, pos_of_decode_more hd, hd⟩
    cb_faulted := fun he' => absurd (he.symm.trans he') Bool.false_ne_true
    pos_le := by simpa [← Nat.add_assoc] using pos_lt_of_nextWord_ne_none hw }

theorem inv_logRead {s : State} {p : Word} {n : Nat} (hn : n ∈ [1, 2, 4, 8]) (hWB : n ≤ s.cfg.WB)
    (hp : p.toNat + n ≤ 2 ^ s.cfg.W) (hs : Inv s) : Inv (logRead p n s) :=
  { hs with
    reads_ok := fun r hr => by
      obtain hr | hr := List.mem_append.1 hr
      · exact hs.reads_ok r hr
      · rw [List.mem_singleton.1 hr]; exact ⟨hn, hWB, hp⟩ }

/-! Reset and the moves of the host -/

theorem inv_resetFor {c : Config} (hc : c.wf = true) : Inv (State.resetFor c) where
  cfg_wf := hc
  h_lt := Nat.two_pow_pos _
  err_iff_cause := by simp [State.resetFor]
  res_lt := by simp [State.resetFor]
  taken_lt := by simp [State.resetFor]
  cb_more := ⟨1, Nat.one_pos, rfl⟩
  cb_faulted := fun _ => rfl
  pos_le := le_rfl
  slice_none := rfl
  mem_wf := rfl
  mem_lt := by simp [State.resetFor]
  reads_ok := by simp [State.resetFor]

theorem inv_sendWords {s : State} (ws : List CmdWord) (hs : Inv s) : Inv (sendWords ws s) :=
  { hs with pos_le := le_trans hs.pos_le (by simp) }

theorem inv_takeResult {s : State} (hs : Inv s) : Inv (takeResult s).2 := by
  obtain ⟨-, e⟩ | ⟨r, rs, hr, e⟩ := takeResult_cases s
  · rwa [e]
  · have hres : ∀ x ∈ r :: rs, x.toNat < 2 ^ s.cfg.W := hr ▸ hs.res_lt
    obtain ⟨hhead, htail⟩ := List.forall_mem_cons.1 hres
    rw [e]
    exact { hs with
      res_lt := htail
      taken_lt := fun x hx => by
        obtain hx | hx := List.mem_append.1 hx
        · exact hs.taken_lt x hx
        · rwa [List.mem_singleton.1 hx] }

/-- R140, R149: reset puts the block's state back and leaves the memory to the host. -/
theorem inv_resetBlock {s : State} (hs : Inv s) : Inv (resetBlock s) :=
  { inv_resetFor hs.cfg_wf with
    pos_le := Nat.zero_le _
    mem_wf := hs.mem_wf
    mem_lt := hs.mem_lt }

theorem inv_storeByte {s : State} (a : Nat) (b : Byte) (hs : Inv s) : Inv (storeByte a b s) := by
  unfold storeByte
  split
  next ha =>
    exact { hs with
      mem_wf := write_wf a b hs.mem_wf
      mem_lt := fun x hx => by
        obtain hx | rfl := mem_write hx
        · exact hs.mem_lt x hx
        · exact ha }
  next => exact hs

/-- Which addresses answer `error` is no part of the invariant (log entry 18). -/
theorem inv_with_memErr {s : State} (l : List Nat) (hs : Inv s) : Inv { s with memErr := l } :=
  { hs with }

theorem inv_failAddress {s : State} (a : Nat) (hs : Inv s) : Inv (failAddress a s) := by
  unfold failAddress
  split
  next => exact hs
  next => exact inv_with_memErr _ hs

/-- Settles O3: the reset state of a legal configuration, of which `Config.chosen` is one. -/
theorem resetMeetsInvariant : Obligations.ResetMeetsInvariant :=
  ⟨fun _ => inv_resetFor, inv_resetFor (by decide)⟩

/-- Settles O5, move by move. -/
theorem hostMovesKeepInvariant : Obligations.HostMovesKeepInvariant := fun _ hs =>
  ⟨fun ws => inv_sendWords ws hs, inv_takeResult hs, inv_resetBlock hs, fun a b => inv_storeByte a b hs,
    fun a => inv_failAddress a hs, fun _ => inv_with_memErr _ hs⟩

end Sys2Proof.Machine
end

section
/-! PROOF. Every step keeps the invariant (10_state.md R31). The one command that takes more than one operation is
`CONS`: between its chunks `Feeding` holds, the invariant for a slice in progress. -/

namespace Sys2Proof.Machine

/-- What holds between two chunks of a `CONS`: the invariant, but for the slice in progress, and the bytes still to
read lie inside the address space (41_consume.md R92, 20_memory.md R46). -/
structure Feeding (s : State) : Prop where
  inv : Inv (endSlice s)
  in_space : ∀ sl, s.slice = some sl → 0 < sl.rem.toNat → sl.ptr.toNat + sl.rem.toNat ≤ 2 ^ s.cfg.W

theorem feeding_of_inv {s : State} (hs : Inv s) : Feeding s :=
  ⟨{ hs with slice_none := rfl }, fun _ hsl => absurd (hs.slice_none.symm.trans hsl) (Option.some_ne_none _).symm⟩

/-- A `CONS` whose slice does not wrap begins inside the address space. -/
theorem feeding_beginSlice {s : State} {addr len : Word} (hs : Inv s)
    (hw : sliceWraps s.cfg addr len = false) : Feeding (beginSlice addr len s) where
  inv := { hs with slice_none := rfl }
  in_space sl hsl hpos := by
    cases hsl
    have hlen : 0 < len.toNat := hpos
    simpa [sliceWraps, hlen] using hw

/-- The widths of the chunk tests are the legal read sizes of at most a word (20_memory.md R43). -/
theorem mem_chunkTests {c : Config} {n m : Nat} (h : m ∈ chunkTests c n) : m ∈ [1, 2, 4, 8] ∧ m ≤ c.WB := by
  obtain h | h := List.mem_append.1 h
  · obtain ⟨-, rfl⟩ := List.mem_replicate.1 h
    exact ⟨by obtain e | e := WB_cases c <;> simp [e], le_rfl⟩
  · have := WB_cases c
    simp only [List.mem_cons, List.not_mem_nil, or_false] at h ⊢
    omega

theorem feeding_tryChunk {s : State} {m : Nat} (hm : m ∈ [1, 2, 4, 8]) (hWB : m ≤ s.cfg.WB)
    (hs : Feeding s) : Feeding (tryChunk s m) := by
  obtain e | ⟨sl, hsl, hrem, h⟩ := tryChunk_cases s m
  · rwa [e]
  have hpos : 0 < m := by
    simp only [List.mem_cons, List.not_mem_nil, or_false] at hm; omega
  have hin : sl.ptr.toNat + sl.rem.toNat ≤ 2 ^ s.cfg.W := hs.in_space sl hsl (by omega)
  have hread : Inv (logRead sl.ptr m (endSlice s)) := inv_logRead hm hWB (by simp only [endSlice_cfg]; omega) hs.inv
  obtain e | e := h
  · have hfault : Inv (raise .memFault (logRead sl.ptr m (endSlice s))) := inv_raise (by decide) hread
    rw [e]
    exact feeding_of_inv hfault
  · obtain ⟨hrem', hin', -⟩ := slice_advance hin hrem
    rw [e]
    refine ⟨{ hread with h_lt := mix_lt _ _ _ }, fun sl' hsl' _ => ?_⟩
    cases hsl'
    rw [hrem']
    exact hin'

theorem feeding_foldl_tryChunk {ms : List Nat} {s : State} (hms : ∀ m ∈ ms, m ∈ [1, 2, 4, 8] ∧ m ≤ s.cfg.WB)
    (hs : Feeding s) : Feeding (ms.foldl tryChunk s) := by
  induction ms generalizing s with
  | nil => exact hs
  | cons m ms ih =>
    obtain ⟨⟨hm, hWB⟩, hms⟩ := List.forall_mem_cons.1 hms
    have hcfg : (tryChunk s m).cfg = s.cfg := (tryChunk_frame s m).1
    exact ih (by rwa [hcfg]) (feeding_tryChunk hm hWB hs)

/-- Every command keeps the invariant. -/
theorem inv_exec {i : Instr} {s t : State} (hs : Inv s) (h : exec i s = .next t) : Inv t := by
  cases he : s.err with
  | true => cases (exec_faulted i he).symm.trans h; exact hs
  | false =>
    cases i with
    | init => cases (exec_init_running he).symm.trans h; exact inv_setH _ hs
    | mixw val => cases (exec_mixw_running val he).symm.trans h; exact inv_setH _ hs
    | fin => cases (exec_fin_running he).symm.trans h; exact inv_pushResult (getH_lt s) hs
    | ldh val => cases (exec_ldh_running val he).symm.trans h; exact inv_setH _ hs
    | cons addr len =>
      obtain ⟨-, rfl⟩ | ⟨-, -, rfl⟩ | ⟨-, hw, rfl⟩ := execCons_next h
      · exact hs
      · exact inv_raise (by decide) hs
      · exact (feeding_foldl_tryChunk (fun _ => mem_chunkTests) (feeding_beginSlice hs hw)).inv

/-- Settles O4, by the cases of a step: no word, a discarded word, and a word that is illegal, is collected or
completes a command. A `CONS` in progress is ruled out by the invariant. -/
theorem stepKeepsInvariant : Obligations.StepKeepsInvariant := by
  intro s t hs h
  obtain ⟨rfl, -⟩ | ⟨he, hw, rfl⟩ | ⟨-, hsl, -⟩ | ⟨w, he, -, hw, hword⟩ := transact_cases h
  · exact hs
  · exact inv_discard he hw hs
  · exact absurd hs.slice_none hsl
  · have hw' : nextWord s ≠ none := hw ▸ Option.some_ne_none w
    obtain ⟨x, -, rfl⟩ | ⟨k, hd, rfl⟩ | ⟨i, rest, -, hx⟩ := hword
    · exact inv_raise (by decide) (inv_advance hw' hs)
    · exact inv_collect he hw' hd hs
    · exact inv_exec (inv_advance hw' hs) hx

end Sys2Proof.Machine
end

section
/-! PROOF. Reset, the result queue, the command port and several instances (10_state.md R25, R26, R29, R30). -/

namespace Sys2Proof.Machine

/-- Settles O1: `H` is read as 0, and every other value is the field of the reset state. -/
theorem resetHoldsSpecValues : Obligations.ResetHoldsSpecValues :=
  ⟨fun c => ⟨wrap_zero c, rfl, rfl, rfl, rfl, rfl, rfl, rfl⟩, rfl⟩

/-- Of all commands only a `FIN` on a running block changes `RES`. -/
theorem exec_res {i : Instr} {s t : State} (h : exec i s = .next t) :
    t.res = s.res ∨ (i = .fin ∧ s.err = false ∧ t.res = s.res ++ [getH s]) := by
  cases he : s.err with
  | true => cases (exec_faulted i he).symm.trans h; exact .inl rfl
  | false =>
    cases i with
    | init => cases (exec_init_running he).symm.trans h; exact .inl rfl
    | mixw val => cases (exec_mixw_running val he).symm.trans h; exact .inl rfl
    | fin => cases (exec_fin_running he).symm.trans h; exact .inr ⟨rfl, rfl, rfl⟩
    | ldh val => cases (exec_ldh_running val he).symm.trans h; exact .inl rfl
    | cons addr len =>
      obtain ⟨-, rfl⟩ | ⟨-, -, rfl⟩ | ⟨-, -, rfl⟩ := execCons_next h
      · exact .inl rfl
      · exact .inl rfl
      · exact .inl (foldl_tryChunk_frame _ _).2.1

/-- Carrying a `CONS` to its end leaves `RES`. -/
theorem feedSlice_res {s t : State} (h : feedSlice s = .next t) : t.res = s.res := by
  obtain ⟨-, e⟩ | ⟨sl, -, -, e⟩ | ⟨sl, -, -, e⟩ := feedSlice_cases s <;> cases e.symm.trans h
  · rfl
  · exact (foldl_tryChunk_frame _ _).2.1

/-- Settles O8, by the cases of a step: only the case of a completed command can change `RES`. -/
theorem onlyFinAppendsResults : Obligations.OnlyFinAppendsResults := by
  intro s t h
  refine ⟨transact_taken h, ?_⟩
  obtain ⟨rfl, -⟩ | ⟨-, -, rfl⟩ | ⟨-, -, hf⟩ | ⟨w, he, -, hw, hword⟩ := transact_cases h
  · exact .inl rfl
  · exact .inl rfl
  · exact .inl (feedSlice_res hf)
  · obtain ⟨x, -, rfl⟩ | ⟨k, -, rfl⟩ | ⟨i, rest, hd, hx⟩ := hword
    · exact .inl rfl
    · exact .inl rfl
    · obtain hres | ⟨rfl, -, hres⟩ := exec_res hx
      · exact .inl hres
      · exact .inr ⟨hres, he, w, rest, hw, hd⟩

/-- Settles O54: the host takes the head of `RES`, which a `FIN` into an empty queue has just put there. -/
theorem resultsLeaveInOrder : Obligations.ResultsLeaveInOrder := by
  intro s r he
  refine ⟨fun rs => takeResult_of_cons, fun hres => ⟨takeResult_of_nil hres, _, exec_fin_running he, ?_⟩⟩
  have hpush : (pushResult (getH s) s).res = [getH s] := by simp [hres]
  rw [takeResult_of_cons hpush, ← hres]
  rfl

/-- Settles O16: the word is accepted, and the decoder asks for more. -/
theorem stepCollectsOperandWords : Obligations.StepCollectsOperandWords :=
  fun _ _ _ he hs hw hd => (step_eq_acceptWord he hs hw).trans (acceptWord_more hd)

/-- R29: a copy between running instances is the result pushed on the source and loaded on the destination. -/
theorem copyAccumulator_running {x y : State} (hx : x.err = false) (hy : y.err = false) :
    copyAccumulator x y = some (pushResult (getH x) x, setH (wrap y.cfg (getH x)) y) := by
  simp [copyAccumulator, exec_fin_running hx, exec_ldh_running _ hy]

/-- R126: the `FIN` of a faulted source delivers nothing to copy. -/
theorem copyAccumulator_faulted {x : State} (y : State) (hx : x.err = true) : copyAccumulator x y = none := by
  simp [copyAccumulator, exec_faulted _ hx]

/-- Settles O30: the destination gets `H` at its own width, which is all of `H` when the widths agree. -/
theorem finThenLdhCopiesTheAccumulator : Obligations.FinThenLdhCopiesTheAccumulator := by
  intro x y
  have hcopy (hx : x.err = false) (hy : y.err = false) : copyAccumulator x y =
      some ({ x with res := x.res ++ [getH x] }, { y with h := wrap y.cfg (getH x) }) := by
    rw [copyAccumulator_running hx hy, setH, wrap_wrap, pushResult]
  refine ⟨fun hx hy hwidth => ?_, hcopy, copyAccumulator_faulted y⟩
  have hsame : wrap y.cfg (getH x) = getH x := by
    rw [wrap_congr_width hwidth.symm]; exact wrap_wrap _ _
  rw [hcopy hx hy, hsame]

/-- Settles O55: stepping one of the instances sets its place of the list alone. -/
theorem instancesShareNothing : Obligations.InstancesShareNothing := by
  intro k ss ts h
  obtain ⟨hk, rfl⟩ | ⟨s, t, hk, hst, rfl⟩ := stepInstance_cases h
  · exact ⟨rfl, fun _ _ => rfl, fun s hs => absurd (hk.symm.trans hs) (Option.some_ne_none s).symm⟩
  · refine ⟨List.length_set, fun j hj => List.getElem?_set_ne hj.symm, fun s' hs' => ?_⟩
    obtain rfl := Option.some.inj (hk.symm.trans hs')
    have hlt : k < ss.length := (List.getElem?_eq_some_iff.1 hk).1
    exact ⟨t, hst, List.getElem?_set_self hlt⟩

end Sys2Proof.Machine
end

section
/-! PROOF. `CONS` and the slice memory: what it answers, which addresses it reads, and that nothing writes
(20_memory.md R44, R45, R54). -/

namespace Sys2Proof.Machine

/-! The two tests on the slice of a `CONS`, as the predicates the statements use -/

theorem sliceWraps_eq_false_iff {s : State} {addr len : Word} :
    sliceWraps s.cfg addr len = false ↔ SliceInSpace s addr len := by
  have hzero : len = 0 ↔ len.toNat = 0 := BitVec.toNat_eq
  rw [SliceInSpace, hzero]
  simp only [sliceWraps, Bool.and_eq_false_iff, decide_eq_false_iff_not]
  omega

theorem touchesDevice_eq_false_iff {s : State} {addr len : Word} :
    touchesDevice s ⟨addr, len⟩ = false ↔ SliceOrdinary s addr len := by
  simp only [touchesDevice, SliceOrdinary, List.any_eq_false, Bool.and_eq_true, decide_eq_true_eq]
  exact ⟨fun h a hlo hhi ha => h a ha ⟨hlo, hhi⟩, fun h a ha hin => h a hin.1 hin.2 ha⟩

theorem sliceOrdinary_empty (s : State) (addr : Word) : SliceOrdinary s addr 0 :=
  fun _ hlo hhi => absurd hhi (Nat.not_lt.2 hlo)

/-! What a `CONS` on a running block answers (41_consume.md R92) -/

theorem exec_cons_inSpace {s : State} {addr len : Word} (he : s.err = false) (hsp : SliceInSpace s addr len) :
    exec (.cons addr len) s = feedSlice (beginSlice addr len s) := by
  simp [exec, execCons, he, sliceWraps_eq_false_iff.2 hsp]

theorem exec_cons_device {s : State} {addr len : Word} (he : s.err = false) (hsp : SliceInSpace s addr len)
    (hdev : ¬ SliceOrdinary s addr len) : exec (.cons addr len) s = .refused .sideEffectSlice := by
  have htouch : touchesDevice (beginSlice addr len s) ⟨addr, len⟩ = true :=
    eq_true_of_ne_false (mt touchesDevice_eq_false_iff.1 hdev)
  rw [exec_cons_inSpace he hsp]
  simp [feedSlice, htouch]

theorem exec_cons_ordinary {s : State} {addr len : Word} (he : s.err = false) (hsp : SliceInSpace s addr len)
    (hord : SliceOrdinary s addr len) :
    exec (.cons addr len) s =
      .next (endSlice ((chunkTests s.cfg len.toNat).foldl tryChunk (beginSlice addr len s))) := by
  have htouch : touchesDevice (beginSlice addr len s) ⟨addr, len⟩ = false := touchesDevice_eq_false_iff.2 hord
  rw [exec_cons_inSpace he hsp]
  simp [feedSlice, htouch]

/-! The reads of a `CONS` (20_memory.md R45) -/

theorem pos_of_mem_chunkTests {c : Config} {n m : Nat} (h : m ∈ chunkTests c n) : 0 < m := by
  have hm := (mem_chunkTests h).1
  simp only [List.mem_cons, List.not_mem_nil, or_false] at hm
  omega

/-- With no byte left to read, chunk tests do nothing. -/
theorem foldl_tryChunk_rem_zero {ms : List Nat} {s : State} {sl : Slice} (hsl : s.slice = some sl)
    (hrem : sl.rem.toNat = 0) (hms : ∀ m ∈ ms, 0 < m) : ms.foldl tryChunk s = s :=
  List.foldlRecOn (motive := fun t => t = s) ms tryChunk rfl fun t ht m hm => by
    subst ht
    exact tryChunk_skip hsl (hrem ▸ hms m hm)

/-- A read request of at least one byte, all of whose bytes are bytes of the slice. -/
def ReadInSlice (addr len : Word) (r : ReadReq) : Prop :=
  addr.toNat ≤ r.addr.toNat ∧ 0 < r.n ∧ r.addr.toNat + r.n ≤ addr.toNat + len.toNat

/-- What holds between two chunks of `CONS addr, len` begun when the reads were `before`: the reads made since lie in
the slice, and so do the bytes still to read, which end inside the address space. -/
structure ReadsWithin (addr len : Word) (before : List ReadReq) (s : State) : Prop where
  reads_in : ∃ rs, s.reads = before ++ rs ∧ ∀ r ∈ rs, ReadInSlice addr len r
  rest_in : ∀ sl, s.slice = some sl → 0 < sl.rem.toNat →
    addr.toNat ≤ sl.ptr.toNat ∧ sl.ptr.toNat + sl.rem.toNat ≤ addr.toNat + len.toNat ∧
    sl.ptr.toNat + sl.rem.toNat ≤ 2 ^ s.cfg.W

theorem readsWithin_beginSlice {s : State} {addr len : Word} (hsp : SliceInSpace s addr len) :
    ReadsWithin addr len s.reads (beginSlice addr len s) where
  reads_in := ⟨[], by simp⟩
  rest_in sl hsl hpos := by
    cases hsl
    obtain rfl | hin := hsp
    · exact absurd hpos (Nat.lt_irrefl 0)
    · exact ⟨le_rfl, le_rfl, hin⟩

/-- One more read inside the slice. -/
theorem reads_in_logRead {addr len p : Word} {n : Nat} {before : List ReadReq} {s : State}
    (hs : ReadsWithin addr len before s) (hp : ReadInSlice addr len ⟨p, n⟩) :
    ∃ rs, (logRead p n s).reads = before ++ rs ∧ ∀ r ∈ rs, ReadInSlice addr len r := by
  obtain ⟨rs, hrs, hin⟩ := hs.reads_in
  refine ⟨rs ++ [⟨p, n⟩], by simp [hrs], fun r hr => ?_⟩
  obtain hr | hr := List.mem_append.1 hr
  · exact hin r hr
  · rwa [List.mem_singleton.1 hr]

theorem readsWithin_tryChunk {addr len : Word} {before : List ReadReq} {s : State} {m : Nat} (hm : 0 < m)
    (hs : ReadsWithin addr len before s) : ReadsWithin addr len before (tryChunk s m) := by
  obtain e | ⟨sl, hsl, hrem, h⟩ := tryChunk_cases s m
  · rwa [e]
  obtain ⟨hlo, hhi, htop⟩ := hs.rest_in sl hsl (by omega)
  have hread := reads_in_logRead hs (p := sl.ptr) (n := m) ⟨hlo, hm, by dsimp only; omega⟩
  obtain e | e := h
  · rw [e]
    exact ⟨hread, fun _ hnone => nomatch hnone⟩
  · obtain ⟨hrem', htop', hptr'⟩ := slice_advance htop hrem
    rw [e]
    refine ⟨hread, fun sl' hsl' hpos => ?_⟩
    cases hsl'
    dsimp only at hpos ⊢
    omega

/-- R45: every read request a `CONS` makes lies inside its slice. -/
theorem exec_cons_reads {s t : State} {addr len : Word} (h : exec (.cons addr len) s = .next t) :
    ∃ rs, t.reads = s.reads ++ rs ∧ ∀ r ∈ rs, ReadInSlice addr len r := by
  obtain ⟨-, rfl⟩ | ⟨-, -, rfl⟩ | ⟨-, hw, rfl⟩ := execCons_next h
  · exact ⟨[], by simp⟩
  · exact ⟨[], by simp⟩
  · exact (List.foldlRecOn (motive := ReadsWithin addr len s.reads) (chunkTests s.cfg len.toNat) tryChunk
      (readsWithin_beginSlice (sliceWraps_eq_false_iff.1 hw))
      fun _ ht _ hm => readsWithin_tryChunk (pos_of_mem_chunkTests hm) ht).reads_in

/-- R45: an empty slice is in space and ordinary wherever it stands, and no chunk test finds a byte to read. -/
theorem exec_cons_empty {s : State} (addr : Word) (he : s.err = false) :
    exec (.cons addr 0) s = .next (endSlice s) := by
  rw [exec_cons_ordinary he (.inl rfl) (sliceOrdinary_empty s addr),
    foldl_tryChunk_rem_zero (beginSlice_slice addr 0 s) rfl fun _ => pos_of_mem_chunkTests]
  rfl

/-- Settles O32, by the empty slice and by the invariant `ReadsWithin` of the chunk loop. -/
theorem consReadsOnlyItsSlice : Obligations.ConsReadsOnlyItsSlice :=
  ⟨fun _ addr => exec_cons_empty addr, fun _ _ _ _ => exec_cons_reads⟩

/-- Settles O35: the slice is inside the address space, so what decides is that it is not ordinary memory. -/
theorem consRefusesSideEffectMemory : Obligations.ConsRefusesSideEffectMemory :=
  fun _ _ _ => exec_cons_device

/-! Nothing writes (20_memory.md R54) -/

/-- Carrying a `CONS` to its end leaves the memory and the configuration. -/
theorem feedSlice_memory {s t : State} (h : feedSlice s = .next t) :
    t.mem = s.mem ∧ t.memErr = s.memErr ∧ t.memDev = s.memDev ∧ t.cfg = s.cfg := by
  obtain ⟨-, e⟩ | ⟨sl, -, -, e⟩ | ⟨sl, -, -, e⟩ := feedSlice_cases s <;> cases e.symm.trans h
  · exact ⟨rfl, rfl, rfl, rfl⟩
  · obtain ⟨hcfg, -, -, -, hmem, herr, hdev⟩ := foldl_tryChunk_frame (chunkTests s.cfg sl.rem.toNat) s
    exact ⟨hmem, herr, hdev, hcfg⟩

/-- R54, R21: what no step changes, by the cases of a step. -/
theorem step_memory {s t : State} (h : step s = .next t) :
    t.mem = s.mem ∧ t.memErr = s.memErr ∧ t.memDev = s.memDev ∧ t.cfg = s.cfg := by
  obtain ⟨rfl, -⟩ | ⟨-, -, rfl⟩ | ⟨-, -, hf⟩ | ⟨w, -, -, -, hword⟩ := transact_cases h
  · exact ⟨rfl, rfl, rfl, rfl⟩
  · exact ⟨rfl, rfl, rfl, rfl⟩
  · exact feedSlice_memory hf
  · obtain ⟨x, -, rfl⟩ | ⟨k, -, rfl⟩ | ⟨i, rest, -, hx⟩ := hword
    · exact ⟨rfl, rfl, rfl, rfl⟩
    · exact ⟨rfl, rfl, rfl, rfl⟩
    · obtain ⟨hcfg, -, -, hmem, herr, hdev⟩ := exec_frame hx
      exact ⟨hmem, herr, hdev, hcfg⟩

/-- Settles O7: the bytes of an unchanged memory are unchanged. -/
theorem stepNeverWritesMemory : Obligations.StepNeverWritesMemory := by
  intro s t h
  obtain ⟨hmem, herr, hdev, hcfg⟩ := step_memory h
  exact ⟨hmem, fun a => by rw [hmem], herr, hdev, hcfg⟩

end Sys2Proof.Machine
end

section
/-! PROOF. The encoder and the decoder are inverse to each other: the operand words, then whole commands
(30_encoding.md R60 to R66). -/

namespace Sys2Proof

/-! The words of one operand: one for `W = 32`, two for `W = 64`, least significant first (R62) -/

theorem fits_iff (c : Config) (v : Word) : c.fits v = true ↔ v.toNat < 2 ^ c.W := decide_eq_true_iff

theorem joinWords_singleton (w : CmdWord) : joinWords [w] = w.setWidth 64 := by
  simp [joinWords]

theorem joinWords_pair (w₁ w₂ : CmdWord) : joinWords [w₁, w₂] = w₂ ++ w₁ := by
  rw [joinWords, joinWords_singleton, BitVec.or_comm, ← BitVec.setWidth_append_eq_shiftLeft_setWidth_or,
    BitVec.setWidth_eq]

theorem joinWords_splitWords {c : Config} {v : Word} (hv : c.fits v = true) :
    joinWords (splitWords c v) = v := by
  have hlt : v.toNat < 2 ^ c.W := (fits_iff c v).1 hv
  obtain ⟨width, e, k⟩ := c
  cases width with
  | w32 =>
    exact (joinWords_singleton _).trans (Machine.wrap_of_lt ⟨.w32, e, k⟩ v hlt)
  | w64 =>
    refine (joinWords_pair _ _).trans ?_
    rw [BitVec.setWidth_ushiftRight_eq_extractLsb, BitVec.setWidth_eq_extractLsb' (by decide)]
    exact BitVec.extractLsb'_append_extractLsb'

theorem splitWords_joinWords {c : Config} {ws : List CmdWord} (h : ws.length = c.NW) :
    splitWords c (joinWords ws) = ws := by
  obtain ⟨width, e, k⟩ := c
  cases width with
  | w32 =>
    obtain ⟨w, rfl⟩ := List.length_eq_one_iff.1 h
    simp [splitWords, joinWords_singleton]
  | w64 =>
    obtain ⟨w₁, w₂, rfl⟩ := List.length_eq_two.1 h
    simp only [splitWords, joinWords_pair, BitVec.setWidth_ushiftRight_eq_extractLsb]
    rw [BitVec.setWidth_append_eq_right, BitVec.extractLsb'_append_eq_left]

theorem fits_joinWords {c : Config} {ws : List CmdWord} (h : ws.length = c.NW) :
    c.fits (joinWords ws) = true := by
  rw [fits_iff]
  obtain ⟨width, e, k⟩ := c
  cases width with
  | w32 =>
    obtain ⟨w, rfl⟩ := List.length_eq_one_iff.1 h
    rw [joinWords_singleton, BitVec.toNat_setWidth_of_le (by decide)]
    exact w.isLt
  | w64 => exact (joinWords ws).isLt

/-! A command and its operand words (R61, R62) -/

@[simp] theorem build_op (c : Config) (op : Op) (ws : List CmdWord) : (op.build c ws).op = op := by
  cases op <;> rfl

theorem build_operands {c : Config} {i : Instr} (hi : i.wf c = true) : i.op.build c (i.operands c) = i := by
  cases i with
  | init => rfl
  | mixw val => exact congrArg Instr.mixw (joinWords_splitWords hi)
  | cons addr len =>
    obtain ⟨haddr, hlen⟩ := Bool.and_eq_true_iff.1 hi
    have hNW : (splitWords c addr).length = c.NW := splitWords_length c addr
    simp only [Instr.op, Instr.operands, Op.build]
    rw [List.take_left' hNW, List.drop_left' hNW, joinWords_splitWords haddr, joinWords_splitWords hlen]
  | fin => rfl
  | ldh val => exact congrArg Instr.ldh (joinWords_splitWords hi)

/-- The operand words of a `CONS` are those of its address and those of its length. -/
theorem cons_operand_lengths {c : Config} {ws : List CmdWord} (h : ws.length = Op.cons.operandWords c) :
    (ws.take c.NW).length = c.NW ∧ (ws.drop c.NW).length = c.NW := by
  have h2 : ws.length = 2 * c.NW := h
  simp only [List.length_take, List.length_drop]
  omega

section
variable {c : Config} {op : Op} {ws : List CmdWord} (h : ws.length = op.operandWords c)
include h

theorem operands_build : (op.build c ws).operands c = ws := by
  cases op with
  | init => exact (List.eq_nil_of_length_eq_zero h).symm
  | mixw => exact splitWords_joinWords h
  | cons =>
    obtain ⟨haddr, hlen⟩ := cons_operand_lengths h
    simp only [Op.build, Instr.operands]
    rw [splitWords_joinWords haddr, splitWords_joinWords hlen, List.take_append_drop]
  | fin => exact (List.eq_nil_of_length_eq_zero h).symm
  | ldh => exact splitWords_joinWords h

theorem wf_build : (op.build c ws).wf c = true := by
  cases op with
  | init => rfl
  | mixw => exact fits_joinWords h
  | cons =>
    obtain ⟨haddr, hlen⟩ := cons_operand_lengths h
    exact Bool.and_eq_true_iff.2 ⟨fits_joinWords haddr, fits_joinWords hlen⟩
  | fin => rfl
  | ldh => exact fits_joinWords h

theorem encode_build : encode c (op.build c ws) = op.head :: ws := by
  rw [encode, build_op, operands_build h]

/-- A head word and exactly its operand words decode to the command they build, whatever follows. -/
theorem decode_head_append (rest : List CmdWord) :
    decode c (op.head :: (ws ++ rest)) = .instr (op.build c ws) rest := by
  rw [decode_head, ← h, if_neg (by simp), List.take_left, List.drop_left]

theorem decode_whole : decode c (op.head :: ws) = .instr (op.build c ws) [] := by
  simpa using decode_head_append h []

end

/-- R66: an encoded command decodes to itself, with what follows it left over. -/
theorem decode_encode {c : Config} {i : Instr} (rest : List CmdWord) (hi : i.wf c = true) :
    decode c (encode c i ++ rest) = .instr i rest := by
  calc decode c (encode c i ++ rest)
      = .instr (i.op.build c (i.operands c)) rest := decode_head_append (operands_length c i) rest
    _ = .instr i rest := by rw [build_operands hi]

/-- Settles O9: the operand words of a well-formed command build it again. -/
theorem decodeEncodeRoundTrip : Obligations.DecodeEncodeRoundTrip := fun _ _ => decode_encode

/-- Settles O10, by what the decoder can say of a list: only a head word with all its operand words is answered
with an instruction. -/
theorem decodedWordsAreTheEncoding : Obligations.DecodedWordsAreTheEncoding := by
  intro c ws i rest h
  cases ws with
  | nil => cases h
  | cons w ws =>
    obtain ⟨-, hd⟩ | ⟨op, -, -, hd⟩ | ⟨op, rfl, hle, hd⟩ := decode_cons_cases c w ws <;> cases hd.symm.trans h
    have hlen : (ws.take (op.operandWords c)).length = op.operandWords c := List.length_take_of_le hle
    refine ⟨?_, wf_build hlen⟩
    rw [encode_build hlen, List.cons_append, List.take_append_drop]

/-! Illegal head words (R65) -/

theorem mem_matchValues_iff (w : CmdWord) : w ∈ ([1, 2, 3, 4, 5] : List CmdWord) ↔ ∃ op : Op, w = op.head := by
  constructor
  · intro h
    simp only [List.mem_cons, List.not_mem_nil, or_false] at h
    obtain rfl | rfl | rfl | rfl | rfl := h
    exacts [⟨.init, rfl⟩, ⟨.mixw, rfl⟩, ⟨.cons, rfl⟩, ⟨.fin, rfl⟩, ⟨.ldh, rfl⟩]
  · rintro ⟨op, rfl⟩
    cases op <;> decide

theorem opOfHead_eq_none_iff_notMem (w : CmdWord) : opOfHead w = none ↔ w ∉ ([1, 2, 3, 4, 5] : List CmdWord) := by
  rw [opOfHead_eq_none, mem_matchValues_iff, not_exists]

/-- Whether the decoder answers illegal is read from the first word alone. -/
theorem decode_illegal_iff (c : Config) (w x : CmdWord) (ws : List CmdWord) :
    decode c (w :: ws) = .illegal x ↔ opOfHead w = none ∧ x = w := by
  obtain ⟨hn, hd⟩ | ⟨op, rfl, -, hd⟩ | ⟨op, rfl, -, hd⟩ := decode_cons_cases c w ws
  · simp [hd, hn, eq_comm]
  · simp [hd]
  · simp [hd]

/-- R65, R66: once a head word has been accepted, no word that follows makes its command illegal. -/
theorem decode_append_ne_illegal {c : Config} {ws : List CmdWord} {k : Nat} (hne : ws ≠ [])
    (h : decode c ws = .more k) (ws' : List CmdWord) (x : CmdWord) : decode c (ws ++ ws') ≠ .illegal x := by
  obtain ⟨w, ws, rfl⟩ := List.exists_cons_of_ne_nil hne
  intro hx
  have hhead : opOfHead w = none := ((decode_illegal_iff c w x _).1 hx).1
  cases ((decode_illegal_iff c w w ws).2 ⟨hhead, rfl⟩).symm.trans h

/-- Settles O11: the head word must select no command. -/
theorem illegalHeadWords : Obligations.IllegalHeadWords := by
  intro c w ws
  simp only [decode_illegal_iff, opOfHead_eq_none_iff_notMem, exists_and_left, exists_eq, and_true]

/-! Lengths and operand assembly (R61, R62) -/

/-- Settles O12: the two answers to a head word are the two branches of `decode_head`, and the table of lengths is
`operandWords` at both widths. -/
theorem commandLengthFromHead : Obligations.CommandLengthFromHead := by
  refine ⟨fun c op ws => ⟨fun hle => ?_, fun hlt => ?_⟩, encode_length, ?_, ?_⟩
  · refine ⟨op.build c (ws.take (op.operandWords c)), build_op _ _ _, ?_⟩
    rw [decode_head, if_neg (Nat.not_lt.2 hle)]
  · rw [decode_head, if_pos hlt]
  all_goals
    rintro ⟨width, e, k⟩ rfl
    exact ⟨rfl, rfl, rfl, rfl, rfl⟩

/-- Settles O13: each list is a head word with its operand words, put together one or two to a value. -/
theorem operandAssembly : Obligations.OperandAssembly := by
  intro e k w1 w2 w3 w4
  simp only [← joinWords_singleton, ← joinWords_pair]
  exact ⟨decode_whole (op := .mixw) rfl, decode_whole (op := .ldh) rfl, decode_whole (op := .cons) rfl,
    decode_whole (op := .mixw) rfl, decode_whole (op := .ldh) rfl, decode_whole (op := .cons) rfl⟩

/-- Settles O14: the decoder evaluated on the words of 95_test_vectors.md, for any byte order and any `K32`. -/
theorem specWordsDecode : Obligations.SpecWordsDecode :=
  fun _ _ => ⟨rfl, rfl, rfl, rfl, rfl, rfl, rfl⟩

end Sys2Proof
end

section
/-! PROOF. The command port: the step that completes a command, and operand words that raise no fault of their own
(30_encoding.md R65, R66). -/

namespace Sys2Proof.Machine

theorem acceptWord_instr {s : State} {w : CmdWord} {i : Instr} {rest : List CmdWord}
    (hd : decode s.cfg (s.cb ++ [w]) = .instr i rest) : acceptWord w s = exec i (advance s) := by
  simp [acceptWord, hd]

/-- Settles O15: the next word is accepted, and the decoder answers the instruction. -/
theorem stepRunsDecodedInstruction : Obligations.StepRunsDecodedInstruction :=
  fun _ _ _ _ he hs hw hd => (step_eq_acceptWord he hs hw).trans (acceptWord_instr hd)

/-- The only cause a chunk test sets is `MemFault`. -/
theorem tryChunk_cause (s : State) (m : Nat) :
    (tryChunk s m).cause = s.cause ∨ (tryChunk s m).cause = .memFault := by
  obtain e | ⟨sl, -, -, e | e⟩ := tryChunk_cases s m <;> rw [e]
  · exact .inl rfl
  · exact .inr rfl
  · exact .inl rfl

theorem foldl_tryChunk_cause (ms : List Nat) (s : State) :
    (ms.foldl tryChunk s).cause = s.cause ∨ (ms.foldl tryChunk s).cause = .memFault :=
  foldl_tryChunk_induct (P := fun t => t.cause = s.cause ∨ t.cause = .memFault)
    (fun t m ht => (tryChunk_cause t m).elim (fun e => e ▸ ht) .inr) ms (.inl rfl)

/-- Of the three faults a command raises the two of `CONS`, never `IllegalCommand` (60_exceptions.md R122 to R124). -/
theorem exec_cause {i : Instr} {s t : State} (h : exec i s = .next t) :
    t.cause = s.cause ∨ t.cause = .sliceWrap ∨ t.cause = .memFault := by
  cases he : s.err with
  | true => cases (exec_faulted i he).symm.trans h; exact .inl rfl
  | false =>
    cases i with
    | init => cases (exec_init_running he).symm.trans h; exact .inl rfl
    | mixw val => cases (exec_mixw_running val he).symm.trans h; exact .inl rfl
    | fin => cases (exec_fin_running he).symm.trans h; exact .inl rfl
    | ldh val => cases (exec_ldh_running val he).symm.trans h; exact .inl rfl
    | cons addr len =>
      obtain ⟨-, rfl⟩ | ⟨-, -, rfl⟩ | ⟨-, -, rfl⟩ := execCons_next h
      · exact .inl rfl
      · exact .inr (.inl rfl)
      · exact (foldl_tryChunk_cause _ (beginSlice addr len s)).imp_right .inr

/-- Settles O18: a block that collects operand words runs without a fault, its next word makes no list the decoder
calls illegal, and the command that word may complete does not raise `IllegalCommand`. -/
theorem operandWordsAreNeverIllegal : Obligations.OperandWordsAreNeverIllegal := by
  intro s t hs hcb h
  have he : s.err = false := Bool.eq_false_iff.2 (mt hs.cb_faulted hcb)
  have hcause : s.cause = .noFault := hs.err_iff_cause.1 he
  obtain ⟨k, -, hmore⟩ := hs.cb_more
  obtain ⟨rfl, -⟩ | ⟨he', -⟩ | ⟨-, hsl, -⟩ | ⟨w, -, -, -, hword⟩ := transact_cases h
  · simp [hcause]
  · exact absurd (he.symm.trans he') Bool.false_ne_true
  · exact absurd hs.slice_none hsl
  · obtain ⟨x, hd, -⟩ | ⟨k', -, rfl⟩ | ⟨i, rest, -, hx⟩ := hword
    · exact absurd hd (decode_append_ne_illegal hcb hmore [w] x)
    · simp [hcause]
    · obtain e | e | e := exec_cause hx <;> simp [e, hcause]

end Sys2Proof.Machine
end

section
/-! PROOF. The assembler's operand check and pseudo-commands, and disassembly (30_encoding.md R68 to R70). -/

namespace Sys2Proof.Machine

/-! One source line (R68, R69) -/

theorem encodeAll_cons_of_some {c : Config} {x : Source} {xs : List Source} {i : Instr} {ws : List CmdWord}
    (hx : instrOf c x = some i) (hxs : encodeAll c xs = some ws) :
    encodeAll c (x :: xs) = some (encode c i ++ ws) := by
  simp [encodeAll, hx, hxs]

theorem encodeAll_singleton (c : Config) (x : Source) : encodeAll c [x] = (instrOf c x).map (encode c) := by
  cases hx : instrOf c x <;> simp [encodeAll, hx]

/-- R68: a `cons` line has an instruction when both its operands are in range. -/
theorem instrOf_cons (c : Config) (a n : Nat) :
    instrOf c (.cons a n) =
      if a < 2 ^ c.W ∧ n < 2 ^ c.W then some (.cons (BitVec.ofNat 64 a) (BitVec.ofNat 64 n)) else none := by
  by_cases ha : a < 2 ^ c.W <;> by_cases hn : n < 2 ^ c.W <;> simp [instrOf, operandOf, ha, hn]

/-- Settles O57: each of the three lines is the encoding of its one instruction, if its operands give it one. -/
theorem assemblerRefusesWideOperands : Obligations.AssemblerRefusesWideOperands := by
  intro c v a n
  refine ⟨(encodeAll_singleton c (.mixw v)).trans ?_, (encodeAll_singleton c (.ldh v)).trans ?_,
    (encodeAll_singleton c (.cons a n)).trans ?_⟩
  · simp only [instrOf, operandOf]; split <;> rfl
  · simp only [instrOf, operandOf]; split <;> rfl
  · rw [instrOf_cons]; split <;> rfl

/-- Settles O58: the lines a pseudo-command expands to are encoded one after another. -/
theorem pseudoCommandsExpand : Obligations.PseudoCommandsExpand := by
  intro c a n ha hn
  have hcons : instrOf c (.cons a n) = some (.cons (BitVec.ofNat 64 a) (BitVec.ofNat 64 n)) := by
    rw [instrOf_cons, if_pos ⟨ha, hn⟩]
  have hzero : instrOf c (.cons 0 0) = some (.cons 0 0) := by
    rw [instrOf_cons, if_pos ⟨Nat.two_pow_pos _, Nat.two_pow_pos _⟩]; rfl
  refine ⟨?_, ?_, encodeAll_singleton c .fin⟩
  · exact encodeAll_cons_of_some rfl (encodeAll_cons_of_some hcons (encodeAll_singleton c .fin))
  · exact (encodeAll_singleton c (.cons 0 0)).trans (by rw [hzero]; rfl)

/-! Disassembly (R70) -/

@[simp] theorem disassembleFuel_nil (c : Config) (fuel : Nat) : disassembleFuel c fuel [] = [] := by
  cases fuel <;> rfl

theorem disassembleFuel_illegal {c : Config} {w : CmdWord} (fuel : Nat) (ws : List CmdWord)
    (hw : opOfHead w = none) : disassembleFuel c (fuel + 1) (w :: ws) = [.illegal w] := by
  simp [disassembleFuel, (decode_illegal_iff c w w ws).2 ⟨hw, rfl⟩]

theorem disassembleFuel_encode {c : Config} {i : Instr} (fuel : Nat) (ws : List CmdWord) (hi : i.wf c = true) :
    disassembleFuel c (fuel + 1) (encode c i ++ ws) = .command i :: disassembleFuel c fuel ws := by
  simp [disassembleFuel, decode_encode ws hi]

/-- The encodings of a list of instructions are listed with one unit of fuel each, and the listing goes on after them. -/
theorem disassembleFuel_flatMap_encode {c : Config} {is : List Instr} (fuel : Nat) (ws : List CmdWord)
    (his : ∀ i ∈ is, i.wf c = true) :
    disassembleFuel c (is.length + fuel) (is.flatMap (encode c) ++ ws) =
      is.map .command ++ disassembleFuel c fuel ws := by
  induction is with
  | nil => simp
  | cons i is ih =>
    obtain ⟨hi, his⟩ := List.forall_mem_cons.1 his
    rw [List.flatMap_cons, List.append_assoc, List.length_cons, Nat.add_right_comm,
      disassembleFuel_encode _ _ hi, ih his, List.map_cons, List.cons_append]

/-- Every command has at least its head word. -/
theorem length_le_length_flatMap_encode (c : Config) (is : List Instr) :
    is.length ≤ (is.flatMap (encode c)).length := by
  induction is with
  | nil => exact le_rfl
  | cons i is ih => simp only [List.flatMap_cons, List.length_append, List.length_cons, encode]; omega

/-- A stream has fuel for its commands and for every word after them. -/
theorem disassemble_flatMap_encode {c : Config} {is : List Instr} (ws : List CmdWord)
    (his : ∀ i ∈ is, i.wf c = true) :
    ∃ fuel, disassemble c (is.flatMap (encode c) ++ ws) =
      is.map .command ++ disassembleFuel c (fuel + ws.length) ws := by
  obtain ⟨fuel, hfuel⟩ := Nat.exists_eq_add_of_le (length_le_length_flatMap_encode c is)
  refine ⟨fuel, ?_⟩
  rw [disassemble, List.length_append, hfuel, Nat.add_assoc, disassembleFuel_flatMap_encode _ _ his]

/-- Settles O59: after the commands there is nothing left to list, or an illegal head word. -/
theorem disassemblyListsTheCommands : Obligations.DisassemblyListsTheCommands := by
  intro c is his
  refine ⟨?_, fun w ws hw => ?_⟩
  · obtain ⟨fuel, h⟩ := disassemble_flatMap_encode [] his
    simpa using h
  · obtain ⟨fuel, h⟩ := disassemble_flatMap_encode (w :: ws) his
    have hhead : opOfHead w = none := (opOfHead_eq_none_iff_notMem w).2 hw
    rw [h, List.length_cons, ← Nat.add_assoc, disassembleFuel_illegal _ _ hhead]

end Sys2Proof.Machine
end

section
/-! PROOF. The mixing step over the natural numbers, and the commands on `H` without memory
(40_mix.md R80 to R83, 00_scope.md R15). -/

namespace Sys2Proof.Machine

/-! The mixing step -/

/-- R15: in a left rotation by `r` the bits shifted out come back below `2^r`, where the shifted value has zeros, so
the two parts add up. -/
theorem toNat_rotateLeft_eq_add {w r : Nat} (x : BitVec w) (hr : r < w) :
    (x.rotateLeft r).toNat = (x.toNat * 2 ^ r) % 2 ^ w + x.toNat / 2 ^ (w - r) := by
  have hpow : 2 ^ w = 2 ^ (w - r) * 2 ^ r := by rw [← Nat.pow_add, Nat.sub_add_cancel hr.le]
  have hhigh : x.toNat * 2 ^ r % 2 ^ w = (x.toNat % 2 ^ (w - r)) <<< r := by
    rw [hpow, Nat.mul_mod_mul_right, Nat.shiftLeft_eq]
  have hlow : x.toNat / 2 ^ (w - r) < 2 ^ r := Nat.div_lt_of_lt_mul (hpow ▸ x.isLt)
  rw [BitVec.toNat_rotateLeft, Nat.mod_eq_of_lt hr, Nat.shiftLeft_eq, Nat.shiftRight_eq_div_pow, hhigh,
    Nat.shiftLeft_add_eq_or_of_lt hlow]

/-- R80 at width `w`: rotate, XOR, multiply modulo `2^w`. -/
theorem toNat_mixAt {w : Nat} (k h v : BitVec w) (hw : 5 < w) :
    (mixAt w k h v).toNat =
      (((h.toNat * 2 ^ 5 % 2 ^ w + h.toNat / 2 ^ (w - 5)) ^^^ v.toNat) * k.toNat) % 2 ^ w := by
  rw [mixAt, rotAmount, BitVec.toNat_mul, BitVec.toNat_xor, toNat_rotateLeft_eq_add h hw]

/-- Settles O26: `mix` is `mixAt` at the configuration's width, on operands that width holds whole. -/
theorem mixIsRotateXorMultiply : Obligations.MixIsRotateXorMultiply := by
  rintro ⟨width, e, k⟩ h v hh hv
  cases width with
  | w32 =>
    have hmix : (mix ⟨.w32, e, k⟩ h v).toNat = (mixAt 32 k (h.setWidth 32) (v.setWidth 32)).toNat :=
      BitVec.toNat_setWidth_of_le (by decide)
    have hlow {x : Word} (hx : x.toNat < 2 ^ 32) : (x.setWidth 32).toNat = x.toNat := by
      rw [BitVec.toNat_setWidth, Nat.mod_eq_of_lt hx]
    rw [hmix, toNat_mixAt _ _ _ (by decide), hlow hh, hlow hv]
    rfl
  | w64 => exact toNat_mixAt K64 h v (by decide)

/-! The commands on `H` -/

/-- Settles O24: a running block writes 0 to `H`, a faulted one discards the command. -/
theorem initSetsHToZero : Obligations.InitSetsHToZero := by
  refine fun s => ⟨rfl, fun he => ?_, exec_faulted .init⟩
  have hzero : wrap s.cfg 0 = 0 := wrap_zero s.cfg
  rw [exec_init_running he, setH, hzero]

/-- Settles O25: what `mix` answers already has `W` bits, so `H` takes it as it is. -/
theorem mixwMixesTheValue : Obligations.MixwMixesTheValue := by
  refine fun s val he => ⟨?_, rfl, encode_length s.cfg (.mixw val)⟩
  rw [exec_mixw_running val he, setH, wrap_mix]

/-- Settles O27: a value of `W` bits is written to `H` as it is, and 0 is what `INIT` writes. -/
theorem ldhLoadsTheWord : Obligations.LdhLoadsTheWord := by
  refine fun s val he hval => ⟨?_, rfl, encode_length s.cfg (.ldh val), ?_⟩
  · rw [exec_ldh_running val he, setH, wrap_of_lt _ _ hval]
  · rw [exec_ldh_running 0 he, exec_init_running he]

/-- Everything `INIT`, `MIXW` and `LDH` can do: nothing, on a faulted block, or a write to `H`. -/
theorem exec_hashRegister_cases {s t : State} {i : Instr} (hi : i = .init ∨ (∃ v, i = .mixw v) ∨ ∃ v, i = .ldh v)
    (h : exec i s = .next t) : t = s ∨ ∃ v, t = setH v s := by
  cases he : s.err with
  | true => cases (exec_faulted i he).symm.trans h; exact .inl rfl
  | false =>
    obtain rfl | ⟨v, rfl⟩ | ⟨v, rfl⟩ := hi
    · cases (exec_init_running he).symm.trans h; exact .inr ⟨_, rfl⟩
    · cases (exec_mixw_running v he).symm.trans h; exact .inr ⟨_, rfl⟩
    · cases (exec_ldh_running v he).symm.trans h; exact .inr ⟨_, rfl⟩

/-- Settles O38: no more than a write to `H` takes place. -/
theorem hashRegisterCommandsFrame : Obligations.HashRegisterCommandsFrame := by
  intro s t i hi h
  obtain rfl | ⟨v, rfl⟩ := exec_hashRegister_cases hi h
  · exact ⟨rfl, fun _ => rfl⟩
  · exact ⟨rfl, fun _ => rfl⟩

end Sys2Proof.Machine
end

section
/-! PROOF. The feeder as pure functions: peeling, the number of chunks and the value of a chunk
(41_consume.md R90, R91, R94, 00_scope.md R16). -/

namespace Sys2Proof.Machine

/-! Peeling (R90) -/

theorem WB_le_eight (c : Config) : c.WB ≤ 8 := by
  obtain h | h := WB_cases c <;> omega

theorem mod_WB_lt_eight (c : Config) (n : Nat) : n % c.WB < 8 :=
  lt_of_lt_of_le (Nat.mod_lt n (WB_pos c)) (WB_le_eight c)

/-- While a word remains, the loop takes one. -/
theorem peel_of_le {c : Config} {n : Nat} (h : c.WB ≤ n) : peel c n = c.WB :: peel c (n - c.WB) := by
  rw [peel, peel, Nat.div_eq_sub_div (WB_pos c) h, Nat.mod_eq_sub_mod h, List.replicate_succ, List.cons_append]

/-- With less than a word remaining, only the tests are made. -/
theorem peel_of_lt {c : Config} {n : Nat} (h : n < c.WB) : peel c n = tailWidths n := by
  rw [peel, Nat.div_eq_of_lt h, Nat.mod_eq_of_lt h, List.replicate_zero, List.nil_append]

/-- The bits of the number of bytes that remain are the three tests. -/
theorem tailWidths_eq_tests {r : Nat} (h : r < 8) :
    tailWidths r =
      (if 4 ≤ r then [4] else []) ++ (if 2 ≤ r % 4 then [2] else []) ++ (if 1 ≤ r % 2 then [1] else []) := by
  revert h r; decide

theorem sum_tailWidths {r : Nat} (h : r < 8) : (tailWidths r).sum = r := by
  revert h r; decide

theorem length_tailWidths {r : Nat} (h : r < 8) : (tailWidths r).length = popcount3 r := by
  revert h r; decide

/-- The chunks cover every byte of the slice once. -/
theorem sum_peel (c : Config) (n : Nat) : (peel c n).sum = n := by
  rw [peel, List.sum_append_nat, List.sum_replicate_nat, sum_tailWidths (mod_WB_lt_eight c n), Nat.div_add_mod']

/-- Settles O43, by the two branches of the loop and the sum of the widths. -/
theorem peelIsTheLoop : Obligations.PeelIsTheLoop :=
  fun c n =>
    ⟨peel_of_le,
      fun h => (peel_of_lt h).trans (tailWidths_eq_tests (lt_of_lt_of_le h (WB_le_eight c))),
      sum_peel c n⟩

/-! The number of chunks (R94) -/

theorem mixes_eq (c : Config) (n : Nat) : mixes c n = n / c.WB + popcount3 (n % c.WB) := by
  rw [mixes, peel, List.length_append, List.length_replicate, length_tailWidths (mod_WB_lt_eight c n)]

@[simp] theorem length_cut (ms : List Nat) (bs : List Byte) : (cut ms bs).length = ms.length := by
  induction ms generalizing bs with
  | nil => rfl
  | cons m ms ih => rw [cut, List.length_cons, ih, List.length_cons]

theorem length_chunkValues (c : Config) (bs : List Byte) : (chunkValues c bs).length = mixes c bs.length := by
  rw [chunkValues, List.length_map, length_cut, mixes]

@[simp] theorem length_readPlan (c : Config) (p : Word) (ms : List Nat) : (readPlan c p ms).length = ms.length := by
  induction ms generalizing p with
  | nil => rfl
  | cons m ms ih => rw [readPlan, List.length_cons, ih, List.length_cons]

/-- The bounds of R94 at `W = 64`: a tail of at least one byte is a chunk of the ceiling and at most two more. -/
theorem mixes_le_w64 {c : Config} (hc : c.width = .w64) (n : Nat) :
    popcount3 (n % c.WB) ≤ 3 ∧ mixes c n ≤ (n + 7) / 8 + 2 := by
  have hWB : c.WB = 8 := by simp [Config.WB, hc]
  rw [mixes_eq, hWB, popcount3]
  omega

/-- The bounds of R94 at `W = 32`, where the tail has no bit 2. -/
theorem mixes_le_w32 {c : Config} (hc : c.width = .w32) (n : Nat) :
    popcount3 (n % c.WB) ≤ 2 ∧ mixes c n ≤ (n + 3) / 4 + 1 := by
  have hWB : c.WB = 4 := by simp [Config.WB, hc]
  rw [mixes_eq, hWB, popcount3]
  omega

/-! The value of a chunk (R91) -/

theorem leNat_lt (bs : List Byte) : leNat bs < 2 ^ (8 * bs.length) := by
  induction bs with
  | nil => decide
  | cons b bs ih =>
    have hb := b.isLt
    rw [leNat, List.length_cons, Nat.mul_succ, Nat.pow_add]
    omega

/-- Byte `i` is the digit at place `i` in base `2^8`. -/
theorem leNat_digit {bs : List Byte} {i : Nat} (h : i < bs.length) :
    leNat bs / 2 ^ (8 * i) % 2 ^ 8 = bs[i].toNat := by
  induction bs generalizing i with
  | nil => exact absurd h (Nat.not_lt_zero i)
  | cons b bs ih =>
    have hb := b.isLt
    cases i with
    | zero => simp only [leNat, List.getElem_cons_zero]; omega
    | succ i =>
      have hshift : leNat (b :: bs) / 2 ^ 8 = leNat bs := by rw [leNat]; omega
      rw [Nat.mul_succ, Nat.add_comm, Nat.pow_add, ← Nat.div_div_eq_div_mul, hshift]
      exact ih (Nat.lt_of_succ_lt_succ h)

/-- Read from the most significant end, byte `i` is the digit at the mirrored place. -/
theorem beNat_digit {bs : List Byte} {i : Nat} (h : i < bs.length) :
    beNat bs / 2 ^ (8 * (bs.length - 1 - i)) % 2 ^ 8 = bs[i].toNat := by
  have hrev : bs.length - 1 - i < bs.reverse.length := by rw [List.length_reverse]; omega
  have hi : bs.length - 1 - (bs.length - 1 - i) = i := by omega
  rw [beNat, leNat_digit hrev, List.getElem_reverse]
  simp only [hi]

theorem neNat_lt (c : Config) (bs : List Byte) : neNat c bs < 2 ^ (8 * bs.length) := by
  unfold neNat
  split
  · exact leNat_lt bs
  · simpa [beNat] using leNat_lt bs.reverse

/-- A chunk of at most 8 bytes fits the 64 bits of a word. -/
theorem toNat_cval {c : Config} {bs : List Byte} (h : bs.length ≤ 8) : (cval c bs).toNat = neNat c bs := by
  have hword : 2 ^ (8 * bs.length) ≤ 2 ^ 64 := Nat.pow_le_pow_right (by decide) (by omega)
  rw [cval, BitVec.toNat_ofNat, Nat.mod_eq_of_lt (lt_of_lt_of_le (neNat_lt c bs) hword)]

/-- Bits `8i+7 .. 8i` of a chunk value are a digit of the chunk read as a number. -/
theorem extract_cval_eq {c : Config} {bs : List Byte} {i : Nat} {b : Byte} (hbs : bs.length ≤ 8)
    (hb : neNat c bs / 2 ^ (8 * i) % 2 ^ 8 = b.toNat) : (cval c bs).extractLsb' (8 * i) 8 = b :=
  BitVec.eq_of_toNat_eq (by rw [BitVec.extractLsb'_toNat, toNat_cval hbs, Nat.shiftRight_eq_div_pow, hb])

/-- Settles O45, by the place of a byte's digit under the two byte orders. -/
theorem chunkValueByteOrder : Obligations.ChunkValueByteOrder := by
  refine fun c bs hbs => ⟨toNat_cval (c := c) hbs ▸ neNat_lt c bs, fun i h => ⟨fun hc => ?_, fun hc => ?_⟩⟩
  · exact extract_cval_eq hbs (by rw [neNat, hc]; exact leNat_digit h)
  · exact extract_cval_eq hbs (by rw [neNat, hc]; exact beNat_digit h)

end Sys2Proof.Machine
end

section
/-! PROOF. The chunk-by-chunk pseudocode of `CONS` is the fold over its slice, and what it leaves unchanged
(41_consume.md R92, R94, 20_memory.md R50, R54). -/

namespace Sys2Proof.Machine

/-! Which chunk tests find enough bytes -/

/-- The widths, among the tests `ms`, of the chunks taken when `r` bytes remain (41_consume.md R92). -/
def widthsTaken : Nat → List Nat → List Nat
  | _, [] => []
  | r, m :: ms => if m ≤ r then m :: widthsTaken (r - m) ms else widthsTaken r ms

theorem widthsTaken_cons_of_le {m r : Nat} (ms : List Nat) (h : m ≤ r) :
    widthsTaken r (m :: ms) = m :: widthsTaken (r - m) ms := if_pos h

theorem widthsTaken_cons_of_lt {m r : Nat} (ms : List Nat) (h : r < m) :
    widthsTaken r (m :: ms) = widthsTaken r ms := if_neg (Nat.not_le.2 h)

/-- Every turn of the word loop takes a word. -/
theorem widthsTaken_replicate_append (q w r : Nat) (ms : List Nat) :
    widthsTaken (q * w + r) (List.replicate q w ++ ms) = List.replicate q w ++ widthsTaken r ms := by
  induction q with
  | zero => simp
  | succ q ih =>
    have hrest : (q + 1) * w + r - w = q * w + r := by rw [Nat.succ_mul]; omega
    rw [List.replicate_succ, List.cons_append, widthsTaken_cons_of_le _ (by rw [Nat.succ_mul]; omega), hrest, ih,
      List.cons_append]

theorem widthsTaken_tests {r : Nat} (h : r < 8) : widthsTaken r [4, 2, 1] = tailWidths r := by
  revert h r; decide

/-- R90: the chunks that the tests of `CONS` take are those of `peel`. -/
theorem widthsTaken_chunkTests (c : Config) (n : Nat) : widthsTaken n (chunkTests c n) = peel c n := by
  have h := widthsTaken_replicate_append (n / c.WB) c.WB (n % c.WB) [4, 2, 1]
  rwa [Nat.div_add_mod', widthsTaken_tests (mod_WB_lt_eight c n)] at h

/-! Chunks mixed one after another -/

/-- State `t` is state `s` after the bytes `bs` from address `p` on have been read and mixed in chunks of the given
widths, whatever slice is in progress in the two (41_consume.md R92). -/
structure ChunksMixed (p : Word) (ms : List Nat) (bs : List Byte) (s t : State) : Prop where
  getH_eq : getH t = ((cut ms bs).map (cval s.cfg)).foldl (mix s.cfg) (getH s)
  frame : endSlice t = { endSlice s with h := t.h, reads := s.reads ++ readPlan s.cfg p ms }

theorem chunksMixed_nil (p : Word) (bs : List Byte) (s : State) : ChunksMixed p [] bs s s where
  getH_eq := rfl
  frame := by simp [readPlan, endSlice]

/-- The first `m` bytes of a slice are mixed in as one chunk. -/
theorem chunksMixed_cons {m : Nat} {ms : List Nat} {s t : State} {sl : Slice} (hsl : s.slice = some sl)
    (hm : m ≤ sl.rem.toNat) (hread : SliceReadable s sl.ptr sl.rem)
    (h : ChunksMixed (wrap s.cfg (sl.ptr + BitVec.ofNat 64 m)) ms ((sliceBytes s sl.ptr sl.rem).drop m)
      (tryChunk s m) t) :
    ChunksMixed sl.ptr (m :: ms) (sliceBytes s sl.ptr sl.rem) s t := by
  have htake : (sliceBytes s sl.ptr sl.rem).take m = Memory.bytes s.mem m sl.ptr.toNat := by
    rw [sliceBytes, ← Nat.add_sub_cancel' hm, bytes_add, List.take_left' (bytes_length _ _ _)]
  obtain ⟨hH, hframe⟩ := h
  rw [tryChunk_ok hsl hm fun x hlo hhi => hread x hlo (by omega)] at hH hframe
  refine ⟨?_, ?_⟩
  · rw [hH, cut, htake]
    simp [getH]
  · rw [hframe]
    simp [readPlan, endSlice]

/-- The bytes that remain after a chunk stand where the slice progress points. -/
theorem sliceBytes_advance {s : State} {p r : Word} {m : Nat} (h : p.toNat + r.toNat ≤ 2 ^ s.cfg.W)
    (hm : m ≤ r.toNat) :
    sliceBytes s (wrap s.cfg (p + BitVec.ofNat 64 m)) (r - BitVec.ofNat 64 m) = (sliceBytes s p r).drop m := by
  obtain ⟨hrem, -, hptr | hlast⟩ := slice_advance h hm
  · rw [sliceBytes, hrem, hptr, sliceBytes, ← Nat.add_sub_cancel' hm, bytes_add,
      List.drop_left' (bytes_length _ _ _), Nat.add_sub_cancel_left]
  · rw [List.drop_of_length_le (by rw [sliceBytes, bytes_length, hlast]), sliceBytes, hrem, hlast, Nat.sub_self]
    rfl

/-- Those bytes are bytes of the slice, so they are readable too. -/
theorem sliceReadable_advance {s : State} {p r : Word} {m : Nat} (h : p.toNat + r.toNat ≤ 2 ^ s.cfg.W)
    (hm : m ≤ r.toNat) (hread : SliceReadable s p r) :
    SliceReadable s (wrap s.cfg (p + BitVec.ofNat 64 m)) (r - BitVec.ofNat 64 m) := by
  obtain ⟨hrem, -, hptr⟩ := slice_advance h hm
  exact fun a hlo hhi => hread a (by omega) (by omega)

/-- Over a readable slice inside the address space, the tests mix the chunks they take. -/
theorem chunksMixed_foldl_tryChunk (ms : List Nat) {s : State} {sl : Slice} (hsl : s.slice = some sl)
    (htop : sl.ptr.toNat + sl.rem.toNat ≤ 2 ^ s.cfg.W) (hread : SliceReadable s sl.ptr sl.rem) :
    ChunksMixed sl.ptr (widthsTaken sl.rem.toNat ms) (sliceBytes s sl.ptr sl.rem) s (ms.foldl tryChunk s) := by
  induction ms generalizing s sl with
  | nil => exact chunksMixed_nil _ _ _
  | cons m ms ih =>
    rw [List.foldl_cons]
    obtain hm | hm := Nat.lt_or_ge sl.rem.toNat m
    · rw [tryChunk_skip hsl hm, widthsTaken_cons_of_lt ms hm]
      exact ih hsl htop hread
    · rw [widthsTaken_cons_of_le ms hm]
      refine chunksMixed_cons hsl hm hread ?_
      obtain ⟨hrem, htop', -⟩ := slice_advance htop hm
      have hread' := sliceReadable_advance htop hm hread
      rw [← sliceBytes_advance htop hm, ← hrem, tryChunk_ok hsl hm fun x hlo hhi => hread x hlo (by omega)]
      exact ih (s := { s with h := _, reads := _, slice := _ }) (sl := ⟨_, _⟩) rfl (hrem ▸ htop') hread'

/-! `CONS` as a whole (R92, R94) -/

/-- R92: a `CONS` of a readable and ordinary slice inside the address space mixes the chunks of `peel`. -/
theorem exec_cons_readable {s : State} {addr len : Word} (he : s.err = false) (hsp : SliceInSpace s addr len)
    (hread : SliceReadable s addr len) (hord : SliceOrdinary s addr len) :
    ∃ t, exec (.cons addr len) s = .next (endSlice t) ∧
      ChunksMixed addr (peel s.cfg len.toNat) (sliceBytes s addr len) s t := by
  obtain rfl | htop := hsp
  · have hpeel : peel s.cfg (0 : Word).toNat = [] := peel_of_lt (WB_pos s.cfg)
    exact ⟨s, exec_cons_empty addr he, hpeel ▸ chunksMixed_nil addr _ s⟩
  · have h := chunksMixed_foldl_tryChunk (chunkTests s.cfg len.toNat) (beginSlice_slice addr len s) htop hread
    rw [widthsTaken_chunkTests] at h
    exact ⟨_, exec_cons_ordinary he (.inr htop) hord, h.getH_eq, h.frame⟩

/-- Settles O31: the chunks of `peel(len)` mixed one after another are the fold. -/
theorem consFoldsTheSlice : Obligations.ConsFoldsTheSlice := by
  intro s addr len he hsp hread hord
  obtain ⟨t, hexec, hmixed⟩ := exec_cons_readable he hsp hread hord
  refine ⟨endSlice t, hexec, ?_, hmixed.frame⟩
  have hlen : (sliceBytes s addr len).length = len.toNat := bytes_length _ _ _
  rw [fold, chunkValues, hlen]
  exact hmixed.getH_eq

/-- Settles O44: a read per chunk of `peel(len)`, and the count of the chunks from their widths. -/
theorem mixCount : Obligations.MixCount := by
  refine ⟨fun s addr len he hsp hread hord => ?_,
    fun c n => ⟨mixes_eq c n, ?_, fun hc => mixes_le_w64 hc n, fun hc => mixes_le_w32 hc n⟩⟩
  · obtain ⟨t, hexec, hmixed⟩ := exec_cons_readable he hsp hread hord
    refine ⟨endSlice t, hexec, ?_⟩
    rw [hmixed.frame, List.length_append, length_readPlan, mixes]
  · rintro bs rfl
    exact length_chunkValues c bs

/-! What `CONS` leaves unchanged -/

/-- `ERR`, `CAUSE`, `CB` and the count of free values of `s` are those of `t`. -/
structure StatusKept (s t : State) : Prop where
  err : t.err = s.err
  cause : t.cause = s.cause
  cb : t.cb = s.cb
  free : t.free = s.free

/-- State `s` has taken a fault with the cause `x` on the way to `t`, which stops a `CONS` in progress
(60_exceptions.md R125). -/
structure FaultTaken (x : Cause) (s t : State) : Prop where
  err : t.err = true
  cause : t.cause = x
  cb : t.cb = []
  free : t.free = s.free + 1
  slice : t.slice = none

theorem faultTaken_raise {s t : State} (x : Cause) (h : StatusKept s t) : FaultTaken x s (raise x t) :=
  ⟨rfl, rfl, rfl, congrArg (· + 1) h.free, rfl⟩

/-- A chunk test keeps the status or raises `MemFault`, and after a fault it does nothing. -/
theorem status_tryChunk {s t : State} (m : Nat) (h : StatusKept s t ∨ FaultTaken .memFault s t) :
    StatusKept s (tryChunk t m) ∨ FaultTaken .memFault s (tryChunk t m) := by
  obtain h | h := h
  · obtain e | ⟨sl, -, -, e | e⟩ := tryChunk_cases t m
    · rw [e]
      exact .inl h
    · rw [e]
      exact .inr (faultTaken_raise .memFault { h with })
    · rw [e]
      exact .inl { h with }
  · rw [tryChunk_none m h.slice]
    exact .inr h

/-- R92, R125: a `CONS` keeps the status or takes one of its two faults. -/
theorem exec_cons_status {s t : State} {addr len : Word} (h : exec (.cons addr len) s = .next t) :
    StatusKept s t ∨ FaultTaken .sliceWrap s t ∨ FaultTaken .memFault s t := by
  have hrefl : StatusKept s s := ⟨rfl, rfl, rfl, rfl⟩
  obtain ⟨-, rfl⟩ | ⟨-, -, rfl⟩ | ⟨-, -, rfl⟩ := execCons_next h
  · exact .inl hrefl
  · exact .inr (.inl (faultTaken_raise .sliceWrap hrefl))
  · obtain h | h := foldl_tryChunk_induct (P := fun u => StatusKept s u ∨ FaultTaken .memFault s u)
      (fun _ m => status_tryChunk m) (chunkTests s.cfg len.toNat) (s := beginSlice addr len s) (.inl { hrefl with })
    · exact .inl { h with }
    · exact .inr (.inr { h with slice := rfl })

/-- A `CONS` pushes no result. -/
theorem exec_cons_res {s t : State} {addr len : Word} (h : exec (.cons addr len) s = .next t) : t.res = s.res := by
  obtain ⟨-, rfl⟩ | ⟨-, -, rfl⟩ | ⟨-, -, rfl⟩ := execCons_next h
  · rfl
  · rfl
  · exact (foldl_tryChunk_frame (chunkTests s.cfg len.toNat) (beginSlice addr len s)).2.1

/-- A `CONS` of an empty slice leaves `H`, on a running block and on a faulted one. -/
theorem exec_cons_empty_h {s t : State} {addr : Word} (h : exec (.cons addr 0) s = .next t) : t.h = s.h := by
  cases he : s.err with
  | true => cases (exec_faulted _ he).symm.trans h; rfl
  | false => cases (exec_cons_empty addr he).symm.trans h; rfl

/-- Settles O40: the frame of every command, and what `CONS` does to `RES`, to `H` on an empty slice and to the
status. -/
theorem consFrame : Obligations.ConsFrame := by
  intro s t addr len h
  obtain ⟨hcfg, hprog, hci, hmem, herr, hdev⟩ := exec_frame h
  refine ⟨exec_cons_res h, exec_taken h, hcfg, hprog, hci, herr, hdev, fun a => by rw [hmem], ?_, ?_⟩
  · rintro rfl
    exact exec_cons_empty_h h
  · obtain k | f | f := exec_cons_status h
    · exact .inl ⟨k.err, k.cause, k.cb, k.free⟩
    · exact .inr ⟨f.err, .inl f.cause, f.cb, f.free⟩
    · exact .inr ⟨f.err, .inr f.cause, f.cb, f.free⟩

end Sys2Proof.Machine
end

section
/-! PROOF. `FIN`: its result, its frame, and that no command reads `RES`, so that taking a `FIN` out of a stream takes
its result out of `RES` and changes nothing else (42_finalize.md R100, R101). -/

namespace Sys2Proof.Machine

/-! The result and the frame of one `FIN` (R100) -/

theorem getH_w64 {s : State} (h : s.cfg.width = .w64) : getH s = s.h := by
  simp [getH, wrap, h]

theorem getH_w32 {s : State} (h : s.cfg.width = .w32) : getH s = (s.h.setWidth 32).setWidth 64 := by
  simp only [getH, wrap, h]

/-- Settles O28: a running block pushes `getH`, which is `H` at its own width, and a faulted one discards the
command. -/
theorem finAppendsTheHash : Obligations.FinAppendsTheHash :=
  fun _ => ⟨rfl, exec_fin_running, exec_faulted .fin, getH_w64, getH_w32⟩

/-- Everything a `FIN` can do: nothing, on a faulted block, or one result pushed. -/
theorem exec_fin_cases {s t : State} (h : exec .fin s = .next t) :
    (s.err = true ∧ t = s) ∨ (s.err = false ∧ t = pushResult (getH s) s) := by
  cases he : s.err with
  | true => cases (exec_faulted .fin he).symm.trans h; exact .inl ⟨rfl, rfl⟩
  | false => cases (exec_fin_running he).symm.trans h; exact .inr ⟨rfl, rfl⟩

/-- Settles O39: no more than the push of one result takes place. -/
theorem finFrame : Obligations.FinFrame := by
  intro s t h
  obtain ⟨-, rfl⟩ | ⟨-, rfl⟩ := exec_fin_cases h
  · exact ⟨rfl, fun _ => rfl⟩
  · exact ⟨rfl, fun _ => rfl⟩

/-- A `FIN` leaves `H`. -/
theorem exec_fin_h {s t : State} (h : exec .fin s = .next t) : t.h = s.h := by
  obtain ⟨-, rfl⟩ | ⟨-, rfl⟩ := exec_fin_cases h
  · rfl
  · rfl

/-! Commands executed one after another (70_reset_and_hazards.md R145) -/

theorem execAll_cons_iff {i : Instr} {is : List Instr} {s t : State} :
    execAll (i :: is) s = .next t ↔ ∃ u, exec i s = .next u ∧ execAll is u = .next t := by
  rw [execAll]
  cases exec i s <;> simp

theorem execAll_append_iff {is js : List Instr} {s t : State} :
    execAll (is ++ js) s = .next t ↔ ∃ u, execAll is s = .next u ∧ execAll js u = .next t := by
  induction is generalizing s with
  | nil => simp [execAll]
  | cons i is ih =>
    simp only [List.cons_append, execAll_cons_iff, ih]
    exact ⟨fun ⟨v, hv, u, hu, ht⟩ => ⟨u, ⟨v, hv, hu⟩, ht⟩, fun ⟨u, ⟨v, hv, hu⟩, ht⟩ => ⟨v, hv, u, hu, ht⟩⟩

/-- R101: a second `FIN` pushes what the first one pushed. -/
theorem execAll_fin_fin {s : State} (he : s.err = false) :
    execAll [.fin, .fin] s = .next { s with res := s.res ++ [getH s, getH s] } := by
  refine execAll_cons_iff.2 ⟨_, exec_fin_running he, execAll_cons_iff.2 ⟨_, exec_fin_running he, ?_⟩⟩
  simp [execAll, pushResult, getH]

/-! No command reads `RES` -/

/-- The state with `rs` in place of the results in `RES`. -/
def withRes (rs : List Result) (s : State) : State := { s with res := rs }

@[simp] theorem withRes_cfg (rs : List Result) (s : State) : (withRes rs s).cfg = s.cfg := rfl

@[simp] theorem withRes_slice (rs : List Result) (s : State) : (withRes rs s).slice = s.slice := rfl

@[simp] theorem endSlice_withRes (rs : List Result) (s : State) :
    endSlice (withRes rs s) = withRes rs (endSlice s) := rfl

@[simp] theorem touchesDevice_withRes (rs : List Result) (s : State) (sl : Slice) :
    touchesDevice (withRes rs s) sl = touchesDevice s sl := rfl

/-- What a chunk test does is decided by the slice progress and the addresses that answer `error`. -/
theorem tryChunk_withRes (rs : List Result) (s : State) (m : Nat) :
    tryChunk (withRes rs s) m = withRes rs (tryChunk s m) := by
  cases hsl : s.slice with
  | none => rw [tryChunk_none m hsl]; exact tryChunk_none m hsl
  | some sl =>
    by_cases hm : m ≤ sl.rem.toNat
    · by_cases hr : ∃ x, sl.ptr.toNat ≤ x ∧ x < sl.ptr.toNat + m ∧ x ∈ s.memErr
      · rw [tryChunk_error hsl hm hr]
        exact tryChunk_error (s := withRes rs s) hsl hm hr
      · push Not at hr
        rw [tryChunk_ok hsl hm hr]
        exact tryChunk_ok (s := withRes rs s) hsl hm hr
    · rw [tryChunk_skip hsl (Nat.not_le.1 hm)]
      exact tryChunk_skip (s := withRes rs s) hsl (Nat.not_le.1 hm)

theorem foldl_tryChunk_withRes (rs : List Result) (ms : List Nat) (s : State) :
    ms.foldl tryChunk (withRes rs s) = withRes rs (ms.foldl tryChunk s) :=
  List.foldl_hom (withRes rs) (tryChunk_withRes rs)

theorem feedSlice_withRes {s t : State} (rs : List Result) (h : feedSlice s = .next t) :
    feedSlice (withRes rs s) = .next (withRes rs t) := by
  obtain ⟨hsl, e⟩ | ⟨sl, -, -, e⟩ | ⟨sl, hsl, hdev, e⟩ := feedSlice_cases s <;> cases e.symm.trans h
  · simp [feedSlice, hsl]
  · simp [feedSlice, hsl, hdev, foldl_tryChunk_withRes]

theorem exec_cons_wraps {s : State} {addr len : Word} (he : s.err = false)
    (hw : sliceWraps s.cfg addr len = true) : exec (.cons addr len) s = .next (raise .sliceWrap s) := by
  simp [exec, execCons, he, hw]

/-- A `CONS` carries the results through: it reads the slice and `H`, not `RES`. -/
theorem exec_cons_withRes {s t : State} {addr len : Word} (rs : List Result)
    (h : exec (.cons addr len) s = .next t) : exec (.cons addr len) (withRes rs s) = .next (withRes rs t) := by
  cases he : s.err with
  | true => cases (exec_faulted _ he).symm.trans h; exact exec_faulted _ he
  | false =>
    cases hw : sliceWraps s.cfg addr len with
    | true => cases (exec_cons_wraps he hw).symm.trans h; exact exec_cons_wraps (s := withRes rs s) he hw
    | false =>
      have hsp : SliceInSpace s addr len := sliceWraps_eq_false_iff.1 hw
      have hfeed : feedSlice (beginSlice addr len s) = .next t := (exec_cons_inSpace he hsp).symm.trans h
      exact (exec_cons_inSpace (s := withRes rs s) he hsp).trans (feedSlice_withRes rs hfeed)

/-! What a run pushes, whatever stood in `RES` before it -/

/-- The run `f` leads from `s` to `t`, pushing the results `v`; whatever stood in `RES` before makes no difference to
it. -/
structure Pushes (f : State → StepOutcome) (s t : State) (v : List Result) : Prop where
  res : t.res = s.res ++ v
  run : ∀ rs, f (withRes rs s) = .next (withRes (rs ++ v) t)

theorem Pushes.nil {f : State → StepOutcome} {s t : State} (hres : t.res = s.res)
    (hrun : ∀ rs, f (withRes rs s) = .next (withRes rs t)) : Pushes f s t [] :=
  ⟨by rw [hres, List.append_nil], fun rs => by rw [hrun, List.append_nil]⟩

/-- A `FIN` pushes one result, or none on a faulted block. -/
theorem exec_fin_pushes {s t : State} (h : exec .fin s = .next t) :
    ∃ v, v.length ≤ 1 ∧ Pushes (exec .fin) s t v := by
  obtain ⟨he, rfl⟩ | ⟨he, rfl⟩ := exec_fin_cases h
  · exact ⟨[], Nat.zero_le 1, .nil rfl fun rs => exec_faulted .fin he⟩
  · exact ⟨[getH s], le_rfl, rfl, fun rs => exec_fin_running (s := withRes rs s) he⟩

/-- R101: whatever a command pushes, it reads nothing of `RES`. -/
theorem exec_pushes {i : Instr} {s t : State} (h : exec i s = .next t) : ∃ v, Pushes (exec i) s t v := by
  cases he : s.err with
  | true => cases (exec_faulted i he).symm.trans h; exact ⟨[], .nil rfl fun rs => exec_faulted i he⟩
  | false =>
    cases i with
    | init =>
      cases (exec_init_running he).symm.trans h
      exact ⟨[], .nil rfl fun rs => exec_init_running (s := withRes rs s) he⟩
    | mixw val =>
      cases (exec_mixw_running val he).symm.trans h
      exact ⟨[], .nil rfl fun rs => exec_mixw_running (s := withRes rs s) val he⟩
    | ldh val =>
      cases (exec_ldh_running val he).symm.trans h
      exact ⟨[], .nil rfl fun rs => exec_ldh_running (s := withRes rs s) val he⟩
    | cons addr len => exact ⟨[], .nil (exec_cons_res h) fun rs => exec_cons_withRes rs h⟩
    | fin => obtain ⟨v, -, hv⟩ := exec_fin_pushes h; exact ⟨v, hv⟩

/-- What a stream of commands pushes is what its commands push, one after another. -/
theorem execAll_pushes {is : List Instr} {s t : State} (h : execAll is s = .next t) :
    ∃ v, Pushes (execAll is) s t v := by
  induction is generalizing s with
  | nil => cases h; exact ⟨[], .nil rfl fun _ => rfl⟩
  | cons i is ih =>
    obtain ⟨u, hu, ht⟩ := execAll_cons_iff.1 h
    obtain ⟨v, hv⟩ := exec_pushes hu
    obtain ⟨w, hw⟩ := ih ht
    refine ⟨v ++ w, by rw [hw.res, hv.res, List.append_assoc], fun rs => execAll_cons_iff.2 ⟨_, hv.run rs, ?_⟩⟩
    rw [hw.run, List.append_assoc]

/-- With the results put back, the state after a `FIN` is the state before it. -/
theorem withRes_exec_fin {s t : State} (h : exec .fin s = .next t) : withRes s.res t = s := by
  obtain ⟨-, rfl⟩ | ⟨-, rfl⟩ := exec_fin_cases h
  · rfl
  · rfl

/-- R101: after a `FIN` the rest of a stream does what it does without it, but for the result the `FIN` pushed. -/
theorem execAll_fin_cons_skip {is : List Instr} {s t : State} (h : execAll (.fin :: is) s = .next t) :
    ∃ v b, t.res = s.res ++ v ++ b ∧ v.length ≤ 1 ∧ execAll is s = .next (withRes (s.res ++ b) t) := by
  obtain ⟨u, hu, ht⟩ := execAll_cons_iff.1 h
  obtain ⟨v, hlen, hv⟩ := exec_fin_pushes hu
  obtain ⟨b, hb⟩ := execAll_pushes ht
  have hrun := hb.run s.res
  rw [withRes_exec_fin hu] at hrun
  exact ⟨v, b, by rw [hb.res, hv.res], hlen, hrun⟩

/-- Settles O29: the part of the stream before the `FIN` ends in the same state, and `RES` after it is what stood in
it then, the result of the `FIN` and the results of the rest. -/
theorem finIsNonDestructive : Obligations.FinIsNonDestructive := by
  refine ⟨fun _ _ => exec_fin_h, fun _ => execAll_fin_fin, fun xs ys s t h => ?_⟩
  obtain ⟨u, hxs, hfin⟩ := execAll_append_iff.1 h
  obtain ⟨v, b, hres, hlen, hys⟩ := execAll_fin_cons_skip hfin
  exact ⟨u.res, v, b, hres, hlen, execAll_append_iff.2 ⟨u, hxs, hys⟩⟩

end Sys2Proof.Machine
end

section
/-! PROOF. Cutting a byte sequence into pieces: a sublist of peeled widths is peeled itself, so a split keeps the chunks
exactly on the boundary set, and then the fold (43_properties.md R108, R114, 41_consume.md R90, R93). -/

namespace Sys2Proof.Machine

/-! The widths of a peeling (R90, R114) -/

@[simp] theorem peel_zero (c : Config) : peel c 0 = [] := peel_of_lt (WB_pos c)

/-- The whole words of a length stand in front of the tests of its rest. -/
theorem peel_mul_add {c : Config} (q : Nat) {r : Nat} (hr : r < c.WB) :
    peel c (q * c.WB + r) = List.replicate q c.WB ++ tailWidths r := by
  rw [peel, Nat.add_comm, Nat.add_mul_div_right r q (WB_pos c), Nat.add_mul_mod_self_right, Nat.div_eq_of_lt hr,
    Nat.mod_eq_of_lt hr, Nat.zero_add]

theorem peel_WB (c : Config) : peel c c.WB = [c.WB] := by
  rw [peel_of_le le_rfl, Nat.sub_self, peel_zero]

theorem peel_one (c : Config) : peel c 1 = [1] :=
  peel_of_lt (by obtain h | h := WB_cases c <;> omega)

theorem peel_two (c : Config) : peel c 2 = [2] :=
  peel_of_lt (by obtain h | h := WB_cases c <;> omega)

/-- Settles O50: a word is taken while one remains, and the tests peel the rest. -/
theorem wordBoundaryLengths : Obligations.WordBoundaryLengths := by
  intro c
  have hpred : peel c (c.WB - 1) = tailWidths (c.WB - 1) := peel_of_lt (Nat.sub_one_lt (WB_pos c).ne')
  refine ⟨peel_WB c, ?_, fun hc => ?_, fun hc => ?_⟩
  · rw [peel_of_le (Nat.le_add_right _ 1), Nat.add_sub_cancel_left, peel_one]
  · rw [hpred, Config.WB, hc]; decide
  · rw [hpred, Config.WB, hc]; decide

/-- The tests' widths are the binary digits of the rest, so some of them are the digits of their own sum. -/
theorem eq_tailWidths_of_sublist {r : Nat} {ms : List Nat} (hr : r < 8) (h : ms.Sublist (tailWidths r)) :
    ms = tailWidths ms.sum := by
  have hall : ∀ r < 8, ∀ ms ∈ (tailWidths r).sublists, ms = tailWidths ms.sum := by decide
  exact hall r hr ms (List.mem_sublists.2 h)

/-- Chunks left out of a peeling leave the peeling of the bytes that remain. -/
theorem eq_peel_of_sublist {c : Config} {n : Nat} {ms : List Nat} (h : ms.Sublist (peel c n)) :
    ms = peel c ms.sum := by
  obtain ⟨words, tail, rfl, hwords, htail⟩ := List.sublist_append_iff.1 h
  obtain ⟨q, -, rfl⟩ := List.sublist_replicate_iff.1 hwords
  have hr := mod_WB_lt_eight c n
  have hle : tail.sum ≤ n % c.WB := sum_tailWidths hr ▸ htail.sum_le_sum (fun _ _ => Nat.zero_le _)
  have hlt : tail.sum < c.WB := lt_of_le_of_lt hle (Nat.mod_lt n (WB_pos c))
  rw [List.sum_append_nat, List.sum_replicate_nat, peel_mul_add q hlt, ← eq_tailWidths_of_sublist hr htail]

/-! The boundary set (R108) -/

theorem mem_cons_chunkEnds_iff {off x : Nat} {ms : List Nat} :
    x ∈ off :: chunkEnds off ms ↔ ∃ ps, ps <+: ms ∧ x = off + ps.sum := by
  induction ms generalizing off with
  | nil => simp [chunkEnds]
  | cons m ms ih =>
    rw [List.mem_cons, chunkEnds, ih]
    constructor
    · rintro (rfl | ⟨ps, hps, rfl⟩)
      · exact ⟨[], List.nil_prefix, rfl⟩
      · exact ⟨m :: ps, List.cons_prefix_cons.2 ⟨rfl, hps⟩, by rw [List.sum_cons, Nat.add_assoc]⟩
    · rintro ⟨ps, hps, rfl⟩
      obtain rfl | ⟨qs, rfl, hqs⟩ := List.prefix_cons_iff.1 hps
      · exact .inl rfl
      · exact .inr ⟨qs, hqs, by rw [List.sum_cons, Nat.add_assoc]⟩

/-- A boundary is where some first chunks of the peeling end. -/
theorem mem_bnd_iff {c : Config} {n x : Nat} : x ∈ bnd c n ↔ ∃ ps, ps <+: peel c n ∧ x = ps.sum := by
  simpa [bnd] using mem_cons_chunkEnds_iff (off := 0) (x := x) (ms := peel c n)

theorem zero_mem_bnd (c : Config) (n : Nat) : 0 ∈ bnd c n := List.mem_cons_self

/-- One split keeps the widths exactly when it is on a boundary. -/
theorem mem_bnd_add_iff {c : Config} {a b : Nat} :
    a ∈ bnd c (a + b) ↔ peel c (a + b) = peel c a ++ peel c b := by
  rw [mem_bnd_iff]
  constructor
  · rintro ⟨ps, ⟨ts, hpts⟩, rfl⟩
    have hps : ps = peel c ps.sum := eq_peel_of_sublist (hpts ▸ List.sublist_append_left ps ts)
    have hts : ts = peel c ts.sum := eq_peel_of_sublist (hpts ▸ List.sublist_append_right ps ts)
    have hb : ts.sum = b := by
      have hsum := congrArg List.sum hpts
      rw [List.sum_append_nat, sum_peel] at hsum
      omega
    rw [← hpts, ← hb, ← hts, ← hps]
  · intro h
    exact ⟨peel c a, h ▸ List.prefix_append _ _, (sum_peel c a).symm⟩

/-- After a split on a boundary, the boundaries that follow are those of the rest. -/
theorem add_mem_bnd_iff {c : Config} {a b x : Nat} (h : peel c (a + b) = peel c a ++ peel c b) :
    a + x ∈ bnd c (a + b) ↔ x ∈ bnd c b := by
  rw [mem_bnd_iff, h]
  constructor
  · rintro ⟨ps, ⟨ts, hpts⟩, hsum⟩
    obtain ⟨us, hus, -⟩ | ⟨us, rfl, hus⟩ := List.append_eq_append_iff.1 hpts
    · have hx : x = 0 := by
        have ha := congrArg List.sum hus
        rw [sum_peel, List.sum_append_nat] at ha
        omega
      exact hx ▸ zero_mem_bnd c b
    · rw [List.sum_append_nat, sum_peel] at hsum
      exact mem_bnd_iff.2 ⟨us, ⟨ts, hus.symm⟩, Nat.add_left_cancel hsum⟩
  · intro hx
    obtain ⟨ps, hps, rfl⟩ := mem_bnd_iff.1 hx
    exact ⟨peel c a ++ ps, (List.prefix_append_right_inj _).2 hps, by rw [List.sum_append_nat, sum_peel]⟩

/-! The widths of pieces consumed one after another (R108) -/

theorem sum_flatMap_peel (c : Config) (ns : List Nat) : (ns.flatMap (peel c)).sum = ns.sum := by
  induction ns with
  | nil => rfl
  | cons n ns ih => rw [List.flatMap_cons, List.sum_append_nat, sum_peel, ih, List.sum_cons]

/-- Pieces keep the widths of the whole exactly when the split after the first one does and the pieces after it keep
theirs. -/
theorem flatMap_peel_cons_iff {c : Config} {n : Nat} {ns : List Nat} :
    (n :: ns).flatMap (peel c) = peel c (n + ns.sum) ↔
      peel c (n + ns.sum) = peel c n ++ peel c ns.sum ∧ ns.flatMap (peel c) = peel c ns.sum := by
  rw [List.flatMap_cons]
  constructor
  · intro h
    have hrest : ns.flatMap (peel c) = peel c ns.sum := by
      have hpeel := eq_peel_of_sublist (h ▸ List.sublist_append_right (peel c n) (ns.flatMap (peel c)))
      rwa [sum_flatMap_peel] at hpeel
    exact ⟨by rw [← h, hrest], hrest⟩
  · rintro ⟨h, hrest⟩
    rw [hrest, h]

/-- Pieces keep the widths of the whole exactly when each of them ends on a boundary. -/
theorem flatMap_peel_iff {c : Config} {ns : List Nat} :
    ns.flatMap (peel c) = peel c ns.sum ↔ ∀ j, j ≤ ns.length → (ns.take j).sum ∈ bnd c ns.sum := by
  induction ns with
  | nil => simp [zero_mem_bnd]
  | cons n ns ih =>
    rw [List.sum_cons, flatMap_peel_cons_iff, ih]
    constructor
    · rintro ⟨hn, hrest⟩ j hj
      cases j with
      | zero => exact zero_mem_bnd c _
      | succ j =>
        rw [List.take_succ_cons, List.sum_cons, add_mem_bnd_iff hn]
        exact hrest j (Nat.le_of_succ_le_succ hj)
    · intro h
      have hn : peel c (n + ns.sum) = peel c n ++ peel c ns.sum :=
        mem_bnd_add_iff.1 (by simpa using h 1 (Nat.succ_pos _))
      refine ⟨hn, fun j hj => ?_⟩
      have hj' := h (j + 1) (Nat.succ_le_succ hj)
      rwa [List.take_succ_cons, List.sum_cons, add_mem_bnd_iff hn] at hj'

theorem chunkPairs_append (off : Nat) (ms ms' : List Nat) :
    chunkPairs off (ms ++ ms') = chunkPairs off ms ++ chunkPairs (off + ms.sum) ms' := by
  induction ms generalizing off with
  | nil => rfl
  | cons m ms ih => simp only [List.cons_append, chunkPairs, ih, List.sum_cons, Nat.add_assoc]

theorem map_snd_chunkPairs (off : Nat) (ms : List Nat) : (chunkPairs off ms).map Prod.snd = ms := by
  induction ms generalizing off with
  | nil => rfl
  | cons m ms ih => rw [chunkPairs, List.map_cons, ih]

/-- The widths alone decide the (offset, width) pairs. -/
theorem chunkPairs_inj {off : Nat} {ms ms' : List Nat} : chunkPairs off ms = chunkPairs off ms' ↔ ms = ms' :=
  ⟨fun h => by rw [← map_snd_chunkPairs off ms, h, map_snd_chunkPairs], congrArg _⟩

theorem pieceChunks_eq (c : Config) (off : Nat) (ns : List Nat) :
    pieceChunks c off ns = chunkPairs off (ns.flatMap (peel c)) := by
  induction ns generalizing off with
  | nil => rfl
  | cons n ns ih => rw [pieceChunks, ih, List.flatMap_cons, chunkPairs_append, sum_peel]

/-- Settles O51: the pairs are decided by the widths, and the widths by the boundaries. -/
theorem splitKeepsChunksIffOnBoundary : Obligations.SplitKeepsChunksIffOnBoundary := by
  intro c ns
  rw [pieceChunks_eq, chunkPairs_inj, flatMap_peel_iff]

/-! The fold over pieces (R108, R93) -/

theorem cut_append {ms ms' : List Nat} {bs bs' : List Byte} (h : ms.sum = bs.length) :
    cut (ms ++ ms') (bs ++ bs') = cut ms bs ++ cut ms' bs' := by
  induction ms generalizing bs with
  | nil =>
    obtain rfl := List.length_eq_zero_iff.1 h.symm
    rfl
  | cons m ms ih =>
    rw [List.sum_cons] at h
    have hm : m ≤ bs.length := h ▸ Nat.le_add_right m ms.sum
    rw [List.cons_append, cut, List.take_append_of_le_length hm, List.drop_append_of_le_length hm,
      ih (by rw [List.length_drop, ← h, Nat.add_sub_cancel_left]), cut, List.cons_append]

/-- A split that keeps the widths keeps the fold. -/
theorem fold_append {c : Config} {bs bs' : List Byte} (h : Word)
    (hpeel : peel c (bs.length + bs'.length) = peel c bs.length ++ peel c bs'.length) :
    fold c h (bs ++ bs') = fold c (fold c h bs) bs' := by
  rw [fold, chunkValues, List.length_append, hpeel, cut_append (sum_peel c _), List.map_append, List.foldl_append]
  rfl

/-- Settles O53: the words of the first piece are the first words of the whole. -/
theorem wordMultipleSplitsAreSafe : Obligations.WordMultipleSplitsAreSafe := by
  intro c h bs1 bs2 hmul
  refine (fold_append h ?_).symm
  obtain ⟨q, hq⟩ := Nat.dvd_of_mod_eq_zero hmul
  have hpieces : peel c bs1.length = List.replicate q c.WB := by
    simpa [hq, Nat.mul_comm, tailWidths] using peel_mul_add q (WB_pos c)
  rw [hpieces, hq, peel, peel, Nat.mul_add_div (WB_pos c), Nat.mul_add_mod, List.replicate_add, List.append_assoc]

/-- Pieces that keep the widths of the whole keep the fold. -/
theorem foldl_fold_eq {c : Config} {bss : List (List Byte)} (h : Word)
    (hpeel : (bss.map List.length).flatMap (peel c) = peel c (bss.map List.length).sum) :
    bss.foldl (fold c) h = fold c h bss.flatten := by
  induction bss generalizing h with
  | nil => simp [fold, chunkValues, cut]
  | cons bs bss ih =>
    obtain ⟨hfirst, hrest⟩ := flatMap_peel_cons_iff.1 hpeel
    rw [← List.length_flatten] at hfirst
    rw [List.foldl_cons, ih _ hrest, List.flatten_cons, fold_append h hfirst]

/-- Settles O52: pieces that end on boundaries keep the widths of the whole. -/
theorem splitOnBoundaryKeepsTheFold : Obligations.SplitOnBoundaryKeepsTheFold := by
  intro c h bss hbnd
  refine foldl_fold_eq h (flatMap_peel_iff.2 fun j hj => ?_)
  rw [← List.map_take, ← List.length_flatten]
  exact hbnd j (by rwa [List.length_map] at hj)

end Sys2Proof.Machine
end

section
/-! PROOF. The mixing step is a bijection in each argument: an inverse of `K` undoes the multiplication, a rotation right
the rotation left, and a second XOR the first (43_properties.md R110, 00_scope.md R8). -/

namespace Sys2Proof.Machine

/-! The inverse formulas -/

theorem rotateRight_rotateLeft {w r : Nat} (x : BitVec w) (hr : r < w) : (x.rotateLeft r).rotateRight r = x := by
  ext i hi
  simp only [BitVec.getElem_rotateRight, BitVec.getElem_rotateLeft, Nat.mod_eq_of_lt hr]
  split
  next => simp
  next hlow =>
    have hi' : w - r + (i - (w - r)) = i := Nat.add_sub_cancel' (Nat.not_lt.1 hlow)
    simp [hi', show i - (w - r) < r by omega]

section
variable {w : Nat} {k kinv : BitVec w}

theorem mixAt_mul_inverse (hk : k * kinv = 1#w) (h v : BitVec w) : mixAt w k h v * kinv = h.rotateLeft 5 ^^^ v := by
  rw [mixAt, rotAmount, BitVec.mul_assoc, hk, BitVec.mul_one]

/-- R110: the value mixed in, from the state before and after. -/
theorem value_eq_of_mixAt (hk : k * kinv = 1#w) (h v : BitVec w) :
    v = (mixAt w k h v * kinv) ^^^ h.rotateLeft 5 := by
  rw [mixAt_mul_inverse hk, BitVec.xor_comm, ← BitVec.xor_assoc, BitVec.xor_self, BitVec.zero_xor]

/-- R110: the state before, from the state after and the value mixed in. -/
theorem state_eq_of_mixAt (hk : k * kinv = 1#w) (hw : 5 < w) (h v : BitVec w) :
    h = ((mixAt w k h v * kinv) ^^^ v).rotateRight 5 := by
  rw [mixAt_mul_inverse hk, BitVec.xor_assoc, BitVec.xor_self, BitVec.xor_zero, rotateRight_rotateLeft h hw]

/-- R110: the value that leads from state `h` to state `x`. -/
theorem mixAt_reaches (hk : k * kinv = 1#w) (h x : BitVec w) :
    mixAt w k h ((x * kinv) ^^^ h.rotateLeft 5) = x := by
  rw [mixAt, rotAmount, BitVec.xor_comm (x * kinv), ← BitVec.xor_assoc, BitVec.xor_self, BitVec.zero_xor,
    BitVec.mul_assoc, BitVec.mul_comm kinv, hk, BitVec.mul_one]

end

/-- Settles O42: the spec's constants are inverse to each other. -/
theorem mixInverseFormulas : Obligations.MixInverseFormulas := by
  have h64 : (0x517cc1b727220a95 : BitVec 64) * 0x2040003d780970bd = 1#64 := by decide
  have h32 : (0x9e3779b9 : BitVec 32) * 0x144cbc89 = 1#32 := by decide
  exact ⟨value_eq_of_mixAt h64, state_eq_of_mixAt h64 (by decide), value_eq_of_mixAt h32,
    state_eq_of_mixAt h32 (by decide)⟩

/-! Every odd constant has an inverse -/

theorem exists_mul_eq_one_of_odd {w : Nat} {k : BitVec w} (hw : 0 < w) (hk : k.toNat % 2 = 1) :
    ∃ kinv : BitVec w, k * kinv = 1#w := by
  have hcop : Nat.Coprime k.toNat (2 ^ w) := (Nat.coprime_two_right.2 (Nat.odd_iff.2 hk)).pow_right w
  obtain ⟨m, -, hm⟩ := Nat.exists_mul_mod_eq_one_of_coprime hcop (Nat.one_lt_two_pow hw.ne')
  refine ⟨BitVec.ofNat w m, BitVec.eq_of_toNat_eq ?_⟩
  rw [BitVec.toNat_mul, BitVec.toNat_ofNat, Nat.mul_mod_mod, hm, BitVec.toNat_ofNat,
    Nat.mod_eq_of_lt (Nat.one_lt_two_pow hw.ne')]

/-! `mix` at both widths -/

theorem W_pos (c : Config) : 0 < c.W := by
  obtain ⟨h, -, -⟩ | ⟨h, -, -⟩ := W_cases c <;> omega

theorem W_le_64 (c : Config) : c.W ≤ 64 := by
  obtain ⟨h, -, -⟩ | ⟨h, -, -⟩ := W_cases c <;> omega

/-- At both widths `mix` is `mixAt` on the low `W` bits. -/
theorem mix_eq_mixAt (c : Config) (h v : Word) :
    mix c h v = (mixAt c.W ((kOf c).setWidth c.W) (h.setWidth c.W) (v.setWidth c.W)).setWidth 64 := by
  obtain ⟨width, e, k⟩ := c
  cases width with
  | w32 => simp [mix, kOf, Config.W]
  | w64 => simp [mix, kOf, Config.W]

/-- `K` of a legal configuration is odd (R8). -/
theorem kOf_odd {c : Config} (hc : c.wf = true) : ((kOf c).setWidth c.W).toNat % 2 = 1 := by
  have hk32 := c.wf_iff_odd.1 hc
  obtain ⟨width, e, k⟩ := c
  cases width with
  | w32 => simpa [kOf, Config.W] using hk32
  | w64 =>
    have hk64 : (K64.setWidth 64).toNat % 2 = 1 := by decide
    exact hk64

theorem setWidth_W_setWidth {c : Config} (x : BitVec c.W) : (x.setWidth 64).setWidth c.W = x := by
  rw [BitVec.setWidth_setWidth_of_le x (W_le_64 c), BitVec.setWidth_eq]

/-- A `W`-bit value is kept whole by its low `W` bits. -/
theorem setWidth_setWidth_W {c : Config} {x : Word} (hx : x.toNat < 2 ^ c.W) : (x.setWidth c.W).setWidth 64 = x :=
  BitVec.eq_of_toNat_eq (by
    rw [BitVec.toNat_setWidth_of_le (W_le_64 c), BitVec.toNat_setWidth, Nat.mod_eq_of_lt hx])

theorem setWidth_W_injOn {c : Config} {x y : Word} (hx : x.toNat < 2 ^ c.W) (hy : y.toNat < 2 ^ c.W)
    (h : x.setWidth c.W = y.setWidth c.W) : x = y := by
  rw [← setWidth_setWidth_W hx, h, setWidth_setWidth_W hy]

/-- Equal answers of `mix` are equal answers of `mixAt`. -/
theorem mixAt_eq_of_mix_eq {c : Config} {h h' v v' : Word} (heq : mix c h v = mix c h' v') :
    mixAt c.W ((kOf c).setWidth c.W) (h.setWidth c.W) (v.setWidth c.W) =
      mixAt c.W ((kOf c).setWidth c.W) (h'.setWidth c.W) (v'.setWidth c.W) := by
  rw [mix_eq_mixAt, mix_eq_mixAt] at heq
  rw [← setWidth_W_setWidth (mixAt c.W _ _ _), heq, setWidth_W_setWidth]

/-- Settles O41, by the inverse formulas for an inverse of the odd `K`. -/
theorem mixIsBijective : Obligations.MixIsBijective := by
  intro c hc
  obtain ⟨kinv, hk⟩ := exists_mul_eq_one_of_odd (W_pos c) (kOf_odd hc)
  have hW : 5 < c.W := by obtain ⟨h, -, -⟩ | ⟨h, -, -⟩ := W_cases c <;> omega
  refine ⟨fun h v v' hv hv' heq => setWidth_W_injOn hv hv' ?_,
    fun h h' v hh hh' heq => setWidth_W_injOn hh hh' ?_, fun h x hx => ?_⟩
  · rw [value_eq_of_mixAt hk (h.setWidth c.W) (v.setWidth c.W), mixAt_eq_of_mix_eq heq, ← value_eq_of_mixAt hk]
  · rw [state_eq_of_mixAt hk hW (h.setWidth c.W) (v.setWidth c.W), mixAt_eq_of_mix_eq heq,
      ← state_eq_of_mixAt hk hW]
  · refine ⟨((x.setWidth c.W * kinv) ^^^ (h.setWidth c.W).rotateLeft 5).setWidth 64, ?_, ?_⟩
    · rw [BitVec.toNat_setWidth_of_le (W_le_64 c)]
      exact BitVec.isLt _
    · rw [mix_eq_mixAt, setWidth_W_setWidth, mixAt_reaches hk, setWidth_setWidth_W hx]

end Sys2Proof.Machine
end

section
/-! PROOF. The hash of particular inputs: zero bytes, inputs of one chunk and inputs whose chunks are palindromes
(43_properties.md R106, R111 to R113, 41_consume.md R91). -/

namespace Sys2Proof.Machine

/-! The two byte orders (R91) -/

theorem neNat_le {c : Config} (hc : c.endian = .le) (bs : List Byte) : neNat c bs = leNat bs := by
  rw [neNat, hc]

theorem neNat_be {c : Config} (hc : c.endian = .be) (bs : List Byte) : neNat c bs = leNat bs.reverse := by
  rw [neNat, hc, beNat]

/-! Zero bytes (R111) -/

theorem mixAt_zero {w : Nat} (k v : BitVec w) : mixAt w k 0#w v = v * k := by
  have hrot : (0#w).rotateLeft rotAmount = 0#w := by ext i hi; simp [BitVec.getElem_rotateLeft]
  rw [mixAt, hrot, BitVec.zero_xor]

/-- `wrap` keeps the low `W` bits. -/
theorem wrap_eq_setWidth (c : Config) (v : Word) : wrap c v = (v.setWidth c.W).setWidth 64 :=
  BitVec.eq_of_toNat_eq (by rw [wrap_toNat, BitVec.toNat_setWidth_of_le (W_le_64 c), BitVec.toNat_setWidth])

/-- From state 0 a mixing step is a multiplication. -/
theorem mix_zero (c : Config) (v : Word) : mix c 0 v = mulw c v (kOf c) := by
  have hzero : (0 : Word).setWidth c.W = 0#c.W := BitVec.setWidth_zero c.W 64
  rw [mix_eq_mixAt, hzero, mixAt_zero, mulw, wrap_eq_setWidth, BitVec.setWidth_mul _ _ (W_le_64 c)]

theorem mix_zero_zero (c : Config) : mix c 0 0 = 0 := by
  have hmul : (0 : Word) * kOf c = 0#64 := BitVec.zero_mul
  rw [mix_zero, mulw, hmul]
  exact wrap_zero c

theorem leNat_replicate_zero (n : Nat) : leNat (List.replicate n 0) = 0 := by
  induction n with
  | zero => rfl
  | succ n ih => rw [List.replicate_succ, leNat, ih]; rfl

theorem cval_replicate_zero (c : Config) (n : Nat) : cval c (List.replicate n 0) = 0 := by
  have hne : neNat c (List.replicate n 0) = 0 := by
    cases hc : c.endian with
    | le => rw [neNat_le hc, leNat_replicate_zero]
    | be => rw [neNat_be hc, List.reverse_replicate, leNat_replicate_zero]
  rw [cval, hne]
  rfl

theorem map_cval_cut_replicate_zero (c : Config) (ms : List Nat) (n : Nat) :
    (cut ms (List.replicate n 0)).map (cval c) = List.replicate ms.length 0 := by
  induction ms generalizing n with
  | nil => rfl
  | cons m ms ih =>
    rw [cut, List.take_replicate, List.drop_replicate, List.map_cons, cval_replicate_zero, ih, List.length_cons,
      List.replicate_succ]

theorem foldl_mix_replicate_zero (c : Config) (n : Nat) : (List.replicate n 0).foldl (mix c) 0 = 0 := by
  induction n with
  | zero => rfl
  | succ n ih => rw [List.replicate_succ, List.foldl_cons, mix_zero_zero, ih]

/-- Settles O47: the chunks of zero bytes have the value 0, and 0 mixed into 0 is 0. -/
theorem zeroIsAFixedPoint : Obligations.ZeroIsAFixedPoint := by
  refine fun c n => ⟨mix_zero_zero c, ?_⟩
  rw [fold, chunkValues, map_cval_cut_replicate_zero, foldl_mix_replicate_zero]

/-! The empty input (R106) -/

theorem fold_nil (c : Config) (h : Word) : fold c h [] = h := by
  rw [fold, chunkValues, List.length_nil, peel_zero, cut, List.map_nil, List.foldl_nil]

/-- Settles O46: no byte is no chunk, and a `CONS` of length 0 ends as it began. -/
theorem emptyInputHashesToZero : Obligations.EmptyInputHashesToZero :=
  ⟨fun c h => ⟨fold_nil c 0, fold_nil c h⟩, fun _ addr he => ⟨_, exec_cons_empty addr he, rfl, rfl⟩⟩

/-! Inputs of one chunk (R112) -/

/-- The hash of an input of one chunk is its value times `K`. -/
theorem fold_zero_of_peel {c : Config} {bs : List Byte} (h : peel c bs.length = [bs.length]) :
    fold c 0 bs = mulw c (cval c bs) (kOf c) := by
  rw [fold, chunkValues, h, cut, cut, List.take_length, List.map_singleton, List.foldl_cons, List.foldl_nil, mix_zero]

/-- Four bytes are one chunk at both widths: a word, or the test of 4. -/
theorem peel_four (c : Config) : peel c 4 = [4] := by
  obtain h | h := WB_cases c
  · exact h ▸ peel_WB c
  · exact peel_of_lt (by omega)

theorem leNat_cons_zeros (x : Byte) (n : Nat) : leNat (x :: List.replicate n 0) = x.toNat := by
  rw [leNat, leNat_replicate_zero, Nat.mul_zero, Nat.add_zero]

/-- Zeros after a byte are the upper bytes of its chunk under `LE`. -/
theorem cval_le_cons_zeros {c : Config} (hc : c.endian = .le) (x : Byte) (n : Nat) :
    cval c (x :: List.replicate n 0) = x.setWidth 64 := by
  rw [cval, neNat_le hc, leNat_cons_zeros, BitVec.ofNat_toNat]

/-- Zeros before a byte are the upper bytes of its chunk under `BE`. -/
theorem cval_be_zeros_append {c : Config} (hc : c.endian = .be) (x : Byte) (n : Nat) :
    cval c (List.replicate n 0 ++ [x]) = x.setWidth 64 := by
  have hrev : (List.replicate n 0 ++ [x]).reverse = x :: List.replicate n 0 := by simp
  rw [cval, neNat_be hc, hrev, leNat_cons_zeros, BitVec.ofNat_toNat]

theorem cval_singleton (c : Config) (x : Byte) : cval c [x] = x.setWidth 64 := by
  cases hc : c.endian with
  | le => exact cval_le_cons_zeros hc x 0
  | be => exact cval_be_zeros_append hc x 0

/-- Settles O48: each of the inputs is one chunk of the value `x`. -/
theorem zeroExtensionCollides : Obligations.ZeroExtensionCollides := by
  intro c x
  have hx : fold c 0 [x] = mulw c (x.setWidth 64) (kOf c) := by
    rw [fold_zero_of_peel (peel_one c), cval_singleton]
  have hcollide {bs : List Byte} (hpeel : peel c bs.length = [bs.length]) (hval : cval c bs = x.setWidth 64) :
      fold c 0 bs = fold c 0 [x] := by
    rw [hx, fold_zero_of_peel hpeel, hval]
  refine ⟨hx, fun hc => ⟨?_, ?_, fun hw => ?_⟩, fun hc => ⟨?_, ?_⟩⟩
  · exact hcollide (peel_two c) (cval_le_cons_zeros hc x 1)
  · exact hcollide (peel_four c) (cval_le_cons_zeros hc x 3)
  · have hWB : c.WB = 8 := by rw [Config.WB, hw]
    exact hcollide (show peel c 8 = [8] from hWB ▸ peel_WB c) (cval_le_cons_zeros hc x 7)
  · exact hcollide (peel_two c) (cval_be_zeros_append hc x 1)
  · exact hcollide (peel_four c) (cval_be_zeros_append hc x 3)

/-! Chunks that read the same backwards (R113) -/

theorem cval_le_eq_be (w : Width) (k : BitVec 32) {bs : List Byte} (h : bs.reverse = bs) :
    cval ⟨w, .le, k⟩ bs = cval ⟨w, .be, k⟩ bs := by
  have hnat : neNat ⟨w, .le, k⟩ bs = neNat ⟨w, .be, k⟩ bs := by
    rw [neNat_le rfl, neNat_be rfl, h]
  rw [cval, cval, hnat]

/-- Settles O49: the byte order enters a fold by the chunk values alone, and these do not depend on it. -/
theorem palindromicChunksIgnoreByteOrder : Obligations.PalindromicChunksIgnoreByteOrder := by
  intro w k h bs hpal
  have hvalues : chunkValues ⟨w, .le, k⟩ bs = chunkValues ⟨w, .be, k⟩ bs :=
    List.map_congr_left fun ch hch => cval_le_eq_be w k (hpal ch hch)
  rw [fold, hvalues]
  rfl

end Sys2Proof.Machine
end

section
/-! PROOF. What a `CONS` of a readable slice leaves in `H` and what the commands of `hash` append to `RES`, from the
fold over the slice's bytes (43_properties.md R104, R105, 42_finalize.md R100). -/

namespace Sys2Proof.Machine

/-- Settles O36: each `CONS` leaves the fold of its bytes into the `H` before. -/
theorem consDependsOnlyOnBytes : Obligations.ConsDependsOnlyOnBytes := by
  intro s1 s2 a1 a2 len he1 he2 hcfg hH hsp1 hread1 hord1 hsp2 hread2 hord2 hbytes
  obtain ⟨t1, hexec1, hfold1, -⟩ := consFoldsTheSlice s1 a1 len he1 hsp1 hread1 hord1
  obtain ⟨t2, hexec2, hfold2, -⟩ := consFoldsTheSlice s2 a2 len he2 hsp2 hread2 hord2
  exact ⟨t1, t2, hexec1, hexec2, by rw [hfold1, hfold2, hcfg, hH, hbytes]⟩

/-- A `CONS` and a `FIN` append the fold of the slice's bytes into `H`. -/
theorem execAll_cons_fin {s : State} {addr len : Word} (he : s.err = false) (hsp : SliceInSpace s addr len)
    (hread : SliceReadable s addr len) (hord : SliceOrdinary s addr len) :
    ∃ t, execAll [.cons addr len, .fin] s = .next t ∧
      t.res = s.res ++ [fold s.cfg (getH s) (sliceBytes s addr len)] ∧ t.err = false := by
  obtain ⟨t, hexec, hfold, hframe⟩ := consFoldsTheSlice s addr len he hsp hread hord
  have hres : t.res = s.res := by rw [hframe]
  have herr : t.err = false := by rw [hframe]; exact he
  refine ⟨pushResult (getH t) t, ?_, ?_, herr⟩
  · exact execAll_cons_iff.2 ⟨t, hexec, execAll_cons_iff.2 ⟨_, exec_fin_running herr, rfl⟩⟩
  · rw [pushResult_res, hres, hfold]

/-- Settles O37: `INIT` puts 0 into `H` and leaves the slice, and the fold from 0 is the hash. -/
theorem oneShotHash : Obligations.OneShotHash := by
  intro s addr len he hsp hread hord
  have hzero : getH (setH 0 s) = 0 := (getH_setH 0 s).trans (wrap_zero s.cfg)
  obtain ⟨t, hexec, hres, herr⟩ := execAll_cons_fin (s := setH 0 s) he hsp hread hord
  rw [hzero] at hres
  refine ⟨t, execAll_cons_iff.2 ⟨_, exec_init_running he, hexec⟩, hres, herr, fun hH => ?_⟩
  obtain ⟨u, hexec', hres', -⟩ := execAll_cons_fin he hsp hread hord
  rw [hH] at hres'
  exact ⟨u, hexec', hres'.trans hres.symm⟩

end Sys2Proof.Machine
end

section
/-! PROOF. Faults: what raises them and what a faulted block does (60_exceptions.md R120 to R127), with an equation per
case of a step. -/

namespace Sys2Proof.Machine

/-! The cases of a step that accept no word of a running block -/

theorem step_faulted_of_none {s : State} (he : s.err = true) (hw : nextWord s = none) : step s = .next s := by
  simp [step, transact, he, hw]

theorem step_faulted_of_some {s : State} {w : CmdWord} (he : s.err = true) (hw : nextWord s = some w) :
    step s = .next (discard s) := by
  simp [step, transact, he, hw]

theorem step_eq_feedSlice {s : State} {sl : Slice} (he : s.err = false) (hsl : s.slice = some sl) :
    step s = feedSlice s := by
  simp [step, transact, he, hsl]

theorem step_idle {s : State} (he : s.err = false) (hsl : s.slice = none) (hw : nextWord s = none) :
    step s = .next s := by
  simp [step, transact, he, hsl, hw]

/-! Faults that are raised (R122, R123) -/

theorem acceptWord_illegal {s : State} {w x : CmdWord} (hd : decode s.cfg (s.cb ++ [w]) = .illegal x) :
    acceptWord w s = .next (raise .illegalCommand (advance s)) := by
  simp [acceptWord, hd]

/-- Settles O17: the word is accepted at a head, and the decoder calls it illegal. -/
theorem illegalHeadWordFaults : Obligations.IllegalHeadWordFaults := by
  intro s w he hs hcb hw hne
  have hnext : nextWord s = some w := by simpa [nextWord, hcb] using hw
  have hd : decode s.cfg (s.cb ++ [w]) = .illegal w := by
    rw [hcb]
    exact (decode_illegal_iff s.cfg w w []).2 ⟨(opOfHead_eq_none_iff_notMem w).2 hne, rfl⟩
  exact ⟨_, (step_eq_acceptWord he hs hnext).trans (acceptWord_illegal hd), rfl, rfl, rfl, rfl, rfl, rfl, rfl, rfl,
    by simp [hcb], rfl, rfl⟩

/-- Settles O33: the slice is not empty and runs past the top, so the test before the first read raises the fault. -/
theorem consSliceWrapFaults : Obligations.ConsSliceWrapFaults := by
  intro s addr len he hlen htop
  have hwraps : sliceWraps s.cfg addr len = true := by simp [sliceWraps, hlen, htop]
  exact ⟨_, exec_cons_wraps he hwraps, rfl, rfl, rfl, rfl, rfl, rfl, rfl, rfl⟩

/-! A faulted block (R126, R127) -/

/-- Settles O20: every command is discarded. -/
theorem noCommandExecutesWhenFaulted : Obligations.NoCommandExecutesWhenFaulted := fun i _ => exec_faulted i

/-- A step of a faulted block moves `ci`, or keeps it where no word is offered, and changes nothing else. -/
theorem step_faulted {s : State} (he : s.err = true) : ∃ n, step s = .next (moveTo n s) := by
  cases hw : nextWord s with
  | none => exact ⟨s.ci, step_faulted_of_none he hw⟩
  | some w => exact ⟨s.ci + 1, step_faulted_of_some he hw⟩

theorem run_faulted (k : Nat) {s : State} (he : s.err = true) :
    ∃ n, Host.Core.run Sys2Proof.core k s = .next (moveTo n s) := by
  induction k generalizing s with
  | zero => exact ⟨s.ci, rfl⟩
  | succ k ih =>
    obtain ⟨m, hstep⟩ := step_faulted he
    obtain ⟨n, hrun⟩ := ih (s := moveTo m s) he
    exact ⟨n, (run_next k hstep).trans hrun⟩

/-- Settles O19: no number of steps changes more than `ci`. -/
theorem faultedBlockOnlyDiscards : Obligations.FaultedBlockOnlyDiscards := by
  refine ⟨fun s w => step_faulted_of_some, fun k s he => ?_⟩
  obtain ⟨n, hrun⟩ := run_faulted k he
  exact ⟨_, hrun, he, rfl, rfl, rfl, rfl⟩

theorem takeResult_status (s : State) : (takeResult s).2.err = s.err ∧ (takeResult s).2.cause = s.cause := by
  obtain ⟨-, e⟩ | ⟨r, rs, -, e⟩ := takeResult_cases s
  · rw [e]; exact ⟨rfl, rfl⟩
  · rw [e]; exact ⟨rfl, rfl⟩

theorem storeByte_status (a : Nat) (b : Byte) (s : State) :
    (storeByte a b s).err = s.err ∧ (storeByte a b s).cause = s.cause := by
  unfold storeByte
  split
  · exact ⟨rfl, rfl⟩
  · exact ⟨rfl, rfl⟩

theorem failAddress_status (a : Nat) (s : State) :
    (failAddress a s).err = s.err ∧ (failAddress a s).cause = s.cause := by
  unfold failAddress
  split
  · exact ⟨rfl, rfl⟩
  · exact ⟨rfl, rfl⟩

/-- Settles O21: the step of a faulted block and every move of the host but reset keep the two fields. -/
theorem onlyResetLeavesFaultedState : Obligations.OnlyResetLeavesFaultedState := by
  intro s he
  refine ⟨fun t h => ?_, fun ws => ⟨he, rfl⟩, he ▸ takeResult_status s, fun a b => he ▸ storeByte_status a b s,
    fun a => he ▸ failAddress_status a s, fun a => ⟨he, rfl⟩, rfl, rfl, wrap_zero s.cfg⟩
  obtain ⟨n, hstep⟩ := step_faulted he
  cases hstep.symm.trans h
  exact ⟨he, rfl⟩

/-! A block over ordinary memory always answers (R120) -/

section
variable {s : State} (hdev : s.memDev = [])
include hdev

theorem sliceOrdinary_of_memDev_nil (addr len : Word) : SliceOrdinary s addr len :=
  fun _ _ _ => hdev ▸ List.not_mem_nil

theorem feedSlice_answers : ∃ t, feedSlice s = .next t := by
  obtain ⟨-, e⟩ | ⟨sl, -, htouch, -⟩ | ⟨sl, -, -, e⟩ := feedSlice_cases s
  · exact ⟨_, e⟩
  · have hno : touchesDevice s sl = false := touchesDevice_eq_false_iff.2 (sliceOrdinary_of_memDev_nil hdev _ _)
    exact absurd (hno.symm.trans htouch) Bool.false_ne_true
  · exact ⟨_, e⟩

/-- The one command that can be refused is `CONS`, and only over memory whose reads have side effects. -/
theorem exec_answers (i : Instr) : ∃ t, exec i s = .next t := by
  cases he : s.err with
  | true => exact ⟨_, exec_faulted i he⟩
  | false =>
    cases i with
    | init => exact ⟨_, exec_init_running he⟩
    | mixw val => exact ⟨_, exec_mixw_running val he⟩
    | fin => exact ⟨_, exec_fin_running he⟩
    | ldh val => exact ⟨_, exec_ldh_running val he⟩
    | cons addr len =>
      cases hwraps : sliceWraps s.cfg addr len with
      | true => exact ⟨_, exec_cons_wraps he hwraps⟩
      | false =>
        exact ⟨_, exec_cons_ordinary he (sliceWraps_eq_false_iff.1 hwraps) (sliceOrdinary_of_memDev_nil hdev _ _)⟩

theorem acceptWord_answers (w : CmdWord) : ∃ t, acceptWord w s = .next t := by
  cases hd : decode s.cfg (s.cb ++ [w]) with
  | illegal x => exact ⟨_, acceptWord_illegal hd⟩
  | more k => exact ⟨_, acceptWord_more hd⟩
  | instr i rest =>
    obtain ⟨t, ht⟩ := exec_answers (s := advance s) hdev i
    exact ⟨t, (acceptWord_instr hd).trans ht⟩

end

/-- Settles O6, by the cases of a step: a faulted block, a `CONS` in progress, no word and a word to accept. -/
theorem stepAlwaysAnswersOverOrdinaryMemory : Obligations.StepAlwaysAnswersOverOrdinaryMemory := by
  intro s hdev
  cases he : s.err with
  | true =>
    obtain ⟨n, hstep⟩ := step_faulted he
    exact ⟨_, hstep⟩
  | false =>
    cases hsl : s.slice with
    | some sl =>
      obtain ⟨t, ht⟩ := feedSlice_answers hdev
      exact ⟨t, (step_eq_feedSlice he hsl).trans ht⟩
    | none =>
      cases hw : nextWord s with
      | none => exact ⟨s, step_idle he hsl hw⟩
      | some w =>
        obtain ⟨t, ht⟩ := acceptWord_answers hdev w
        exact ⟨t, (step_eq_acceptWord he hsl hw).trans ht⟩

end Sys2Proof.Machine
end

section
/-! PROOF. `CONS` over a slice with a byte that answers `error`: the reads are the first ones of the plan and end at the
failing one (60_exceptions.md R124, R125, 41_consume.md R92). -/

namespace Sys2Proof.Machine

/-- Every byte of a read request is answered with a byte, not with `error` (20_memory.md R53). -/
def ReadAnswered (s : State) (r : ReadReq) : Prop :=
  ∀ a, r.addr.toNat ≤ a → a < r.addr.toNat + r.n → a ∉ s.memErr

theorem not_readAnswered_iff {s : State} {r : ReadReq} :
    ¬ ReadAnswered s r ↔ ∃ a, r.addr.toNat ≤ a ∧ a < r.addr.toNat + r.n ∧ a ∈ s.memErr := by
  unfold ReadAnswered
  push Not
  rfl

theorem not_sliceReadable_iff {s : State} {addr len : Word} :
    ¬ SliceReadable s addr len ↔ ∃ a, addr.toNat ≤ a ∧ a < addr.toNat + len.toNat ∧ a ∈ s.memErr := by
  unfold SliceReadable
  push Not
  rfl

theorem readAnswered_of_readInSlice {s : State} {addr len : Word} {r : ReadReq} (hread : SliceReadable s addr len)
    (hr : ReadInSlice addr len r) : ReadAnswered s r := by
  obtain ⟨hlo, -, hhi⟩ := hr
  exact fun a ha ha' => hread a (hlo.trans ha) (ha'.trans_le hhi)

/-- A slice is readable when its first `m` bytes are answered and the bytes that remain after them are readable. -/
theorem sliceReadable_of_advance {s : State} {p r : Word} {m : Nat} (h : p.toNat + r.toNat ≤ 2 ^ s.cfg.W)
    (hm : m ≤ r.toNat) (hfirst : ReadAnswered s ⟨p, m⟩)
    (hrest : SliceReadable s (wrap s.cfg (p + BitVec.ofNat 64 m)) (r - BitVec.ofNat 64 m)) :
    SliceReadable s p r := by
  obtain ⟨hrem, -, hptr⟩ := slice_advance h hm
  intro a hlo hhi
  obtain ha | ha := Nat.lt_or_ge a (p.toNat + m)
  · exact hfirst a hlo ha
  · exact hrest a (by omega) (by omega)

/-! The chunk tests up to the failing read -/

/-- On the way from `s` to `t` the first requests of `plan` have been made, the last of them the first one that is
answered with `error`, and `MemFault` is raised (R124; log entry 17). -/
structure FaultsAtRead (plan : List ReadReq) (s t : State) : Prop where
  fault : FaultTaken .memFault s t
  reads : ∃ rs r, t.reads = s.reads ++ (rs ++ [r]) ∧ rs ++ [r] <+: plan ∧
    ¬ ReadAnswered s r ∧ ∀ q ∈ rs, ReadAnswered s q

/-- The first request of the plan fails. -/
theorem faultsAtRead_raise {s : State} {p : Word} {m : Nat} (plan : List ReadReq) (hr : ¬ ReadAnswered s ⟨p, m⟩) :
    FaultsAtRead (⟨p, m⟩ :: plan) s (raise .memFault (logRead p m s)) where
  fault := faultTaken_raise .memFault ⟨rfl, rfl, rfl, rfl⟩
  reads := ⟨[], ⟨p, m⟩, rfl, ⟨plan, rfl⟩, hr, fun _ hq => absurd hq List.not_mem_nil⟩

/-- The first chunk is read, and a later request of the plan fails. -/
theorem faultsAtRead_cons {s t : State} {sl : Slice} {m : Nat} {plan : List ReadReq} (hsl : s.slice = some sl)
    (hm : m ≤ sl.rem.toNat) (hr : ReadAnswered s ⟨sl.ptr, m⟩) (h : FaultsAtRead plan (tryChunk s m) t) :
    FaultsAtRead (⟨sl.ptr, m⟩ :: plan) s t := by
  rw [tryChunk_ok hsl hm hr] at h
  obtain ⟨hfault, rs, r, hreads, hpre, hbad, hok⟩ := h
  refine ⟨{ hfault with }, ⟨sl.ptr, m⟩ :: rs, r, ?_, (List.prefix_cons_inj _).2 hpre, hbad,
    List.forall_mem_cons.2 ⟨hr, hok⟩⟩
  rw [hreads, List.append_assoc]
  rfl

/-- Tests that would take the whole of an unreadable slice stop at a chunk that cannot be read. -/
theorem faultsAtRead_foldl_tryChunk (ms : List Nat) {s : State} {sl : Slice} (hsl : s.slice = some sl)
    (htop : sl.ptr.toNat + sl.rem.toNat ≤ 2 ^ s.cfg.W)
    (hsum : (widthsTaken sl.rem.toNat ms).sum = sl.rem.toNat) (hbad : ¬ SliceReadable s sl.ptr sl.rem) :
    FaultsAtRead (readPlan s.cfg sl.ptr (widthsTaken sl.rem.toNat ms)) s (ms.foldl tryChunk s) := by
  induction ms generalizing s sl with
  | nil =>
    have hrem : sl.rem.toNat = 0 := hsum.symm
    exact absurd (fun a hlo hhi => by omega) hbad
  | cons m ms ih =>
    rw [List.foldl_cons]
    obtain hm | hm := Nat.lt_or_ge sl.rem.toNat m
    · rw [widthsTaken_cons_of_lt ms hm] at hsum ⊢
      rw [tryChunk_skip hsl hm]
      exact ih hsl htop hsum hbad
    · rw [widthsTaken_cons_of_le ms hm, List.sum_cons] at hsum
      rw [widthsTaken_cons_of_le ms hm, readPlan]
      by_cases hr : ReadAnswered s ⟨sl.ptr, m⟩
      · obtain ⟨hrem, htop', -⟩ := slice_advance htop hm
        refine faultsAtRead_cons hsl hm hr ?_
        rw [tryChunk_ok hsl hm hr, ← hrem]
        exact ih (s := { s with h := _, reads := _, slice := _ }) (sl := ⟨_, _⟩) rfl (hrem ▸ htop')
          (by dsimp only; rw [hrem]; omega) fun hrest => hbad (sliceReadable_of_advance htop hm hr hrest)
      · rw [tryChunk_error hsl hm (not_readAnswered_iff.1 hr), foldl_tryChunk_none ms (raise_slice _ _)]
        exact faultsAtRead_raise _ hr

/-- R124: a `CONS` of an unreadable, ordinary slice inside the address space ends at the first read of its plan that
is answered with `error`. -/
theorem exec_cons_unreadable {s : State} {addr len : Word} (he : s.err = false) (hsp : SliceInSpace s addr len)
    (hbad : ¬ SliceReadable s addr len) (hord : SliceOrdinary s addr len) :
    ∃ t, exec (.cons addr len) s = .next t ∧ FaultsAtRead (readPlan s.cfg addr (peel s.cfg len.toNat)) s t := by
  refine ⟨_, exec_cons_ordinary he hsp hord, ?_⟩
  have htop : addr.toNat + len.toNat ≤ 2 ^ s.cfg.W := by
    refine hsp.resolve_left ?_
    rintro rfl
    exact hbad fun _ hlo hhi => absurd hhi (Nat.not_lt.2 hlo)
  have hsum : (widthsTaken len.toNat (chunkTests s.cfg len.toNat)).sum = len.toNat := by
    rw [widthsTaken_chunkTests, sum_peel]
  obtain ⟨hfault, hreads⟩ :=
    faultsAtRead_foldl_tryChunk (chunkTests s.cfg len.toNat) (beginSlice_slice addr len s) htop hsum hbad
  rw [widthsTaken_chunkTests] at hreads
  exact ⟨{ hfault with slice := rfl }, hreads⟩

/-- The reads of a readable slice are the whole plan, each of them answered: they lie in the slice. -/
theorem readPlan_answered {s t : State} {addr len : Word} {plan : List ReadReq}
    (h : exec (.cons addr len) s = .next t) (hread : SliceReadable s addr len) (hreads : t.reads = s.reads ++ plan) :
    ∀ r ∈ plan, ReadAnswered s r := by
  obtain ⟨rs, hrs, hin⟩ := exec_cons_reads h
  obtain rfl : rs = plan := List.append_cancel_left (hrs.symm.trans hreads)
  exact fun r hr => readAnswered_of_readInSlice hread (hin r hr)

/-- Settles O34: a readable slice is read to the end of its plan, an unreadable one up to the failing read. -/
theorem consMemFaultExactly : Obligations.ConsMemFaultExactly := by
  intro s addr len he hcause hsp hord
  by_cases hread : SliceReadable s addr len
  · obtain ⟨t, hexec, -, hframe⟩ := consFoldsTheSlice s addr len he hsp hread hord
    have herr : t.err = false := by rw [hframe]; exact he
    have hno : t.cause = .noFault := by rw [hframe]; exact hcause
    have hreads : t.reads = s.reads ++ readPlan s.cfg addr (peel s.cfg len.toNat) := by rw [hframe]
    have hplan := readPlan_answered hexec hread hreads
    exact ⟨t, hexec, iff_of_false (by simp [hno]) fun h => not_sliceReadable_iff.2 h hread, by simp [herr, hno],
      by simp [hno], by simp [herr], _, hreads, List.prefix_rfl, by simp [herr],
      fun r hr => hplan r (List.mem_of_mem_dropLast hr)⟩
  · obtain ⟨t, hexec, hfault, rs, r, hreads, hpre, hr, hok⟩ := exec_cons_unreadable he hsp hread hord
    have hlast : (rs ++ [r]).getLast? = some r := List.getLast?_concat
    refine ⟨t, hexec, iff_of_true hfault.cause (not_sliceReadable_iff.1 hread), iff_of_true hfault.err hfault.cause,
      by simp [hfault.cause], fun _ => ⟨hfault.cb, hfault.slice, exec_cons_res hexec, ?_⟩, _, hreads, hpre,
      fun _ => ⟨r, hlast, not_readAnswered_iff.1 hr⟩, ?_⟩
    · exact congrArg Cause.code hfault.cause
    · rw [List.dropLast_concat]
      exact hok

end Sys2Proof.Machine
end

section
/-! PROOF. Asserting reset, and a partly received command: the decoder on the beginning of a command, and a block that
waits for the next word (70_reset_and_hazards.md R140, R150, 30_encoding.md R66). -/

namespace Sys2Proof

/-- The beginning of a command that is not complete is not complete either. -/
theorem decode_more_of_append {c : Config} {ws ws' : List CmdWord} {k : Nat} (h : decode c (ws ++ ws') = .more k) :
    ∃ j, decode c ws = .more j := by
  cases ws with
  | nil => exact ⟨1, rfl⟩
  | cons w ws =>
    obtain ⟨-, hd⟩ | ⟨op, rfl, hlt, -⟩ | ⟨op, -, -, hd⟩ := decode_cons_cases c w (ws ++ ws')
    · cases hd.symm.trans h
    · have hle : ws.length ≤ (ws ++ ws').length := (List.sublist_append_left ws ws').length_le
      exact ⟨_, (decode_head c op ws).trans (if_pos (hle.trans_lt hlt))⟩
    · cases hd.symm.trans h

/-- Without its last word an encoded command lacks one word. -/
theorem decode_more_of_encode {c : Config} {i : Instr} {ws : List CmdWord} {w : CmdWord}
    (h : encode c i = ws ++ [w]) : decode c ws = .more 1 := by
  cases ws with
  | nil => rfl
  | cons u us =>
    obtain ⟨rfl, hops⟩ := List.cons.inj h
    have hlen : i.op.operandWords c = us.length + 1 := by
      rw [← operands_length, hops]
      exact List.length_append
    rw [decode_head, hlen, if_pos (Nat.lt_succ_self _), Nat.add_sub_cancel_left]

end Sys2Proof

namespace Sys2Proof.Machine

/-- Settles O2: `H` is read as 0, and every other value is the field of the reset state. -/
theorem assertResetFromAnyState : Obligations.AssertResetFromAnyState :=
  fun s => ⟨wrap_zero s.cfg, rfl, rfl, rfl, rfl, rfl, rfl⟩

/-! A partly received command (R150) -/

/-- A block with nothing to do does nothing, however many steps it makes. -/
theorem run_idle (k : Nat) {s : State} (he : s.err = false) (hsl : s.slice = none) (hw : nextWord s = none) :
    Host.Core.run Sys2Proof.core k s = .next s := by
  induction k with
  | zero => rfl
  | succ k ih => rw [run_next k (step_idle he hsl hw), ih]

/-- Where no word is offered, the first of the words sent is the next word. -/
theorem nextWord_sendWords {s : State} (hw : nextWord s = none) (hpos : s.ci + s.cb.length ≤ s.prog.length)
    (w : CmdWord) (ws : List CmdWord) : nextWord (sendWords (w :: ws) s) = some w := by
  have hend : s.prog.length = s.ci + s.cb.length := (List.getElem?_eq_none_iff.1 hw).antisymm hpos
  simp [nextWord, ← hend]

/-- Settles O22: with no word offered the block is idle; the first word sent is the next one it accepts, and what it
has received already has a legal head word. -/
theorem partialCommandWaits : Obligations.PartialCommandWaits := by
  rintro s ⟨he, hsl, hcb, hw⟩ hpos
  refine ⟨fun k => run_idle k he hsl hw, fun w ws => ?_, rfl⟩
  have hnext := nextWord_sendWords hw hpos w ws
  refine ⟨fun k => stepCollectsOperandWords (sendWords (w :: ws) s) w k he hsl hnext,
    fun i rest => stepRunsDecodedInstruction (sendWords (w :: ws) s) w i rest he hsl hnext, fun hs => ?_⟩
  obtain ⟨k, -, hmore⟩ := hs.cb_more
  exact decode_append_ne_illegal hcb hmore [w]

end Sys2Proof.Machine
end

section
/-! PROOF. No command reads or moves `ci`, so that the place of its words on the port makes no difference to what it does
(10_state.md R23, 70_reset_and_hazards.md R145). -/

namespace Sys2Proof.Machine

@[simp] theorem atIndex_next (k : Nat) (s : State) : atIndex k (.next s) = .next (moveTo k s) := rfl

@[simp] theorem atIndex_atIndex (j k : Nat) (o : StepOutcome) : atIndex k (atIndex j o) = atIndex k o := by
  cases o <;> rfl

@[simp] theorem readBytes_moveTo (k : Nat) (s : State) (n a : Nat) :
    readBytes (moveTo k s) n a = readBytes s n a := by
  induction n generalizing a with
  | zero => rfl
  | succ n ih => simp only [readBytes, ih]; rfl

theorem chunkStep_moveTo (k m : Nat) (sl : Slice) (s : State) :
    chunkStep m sl (moveTo k s) = moveTo k (chunkStep m sl s) := by
  rw [chunkStep, chunkStep, readBytes_moveTo]
  cases readBytes s m sl.ptr.toNat <;> rfl

theorem tryChunk_moveTo (k : Nat) (s : State) (m : Nat) : tryChunk (moveTo k s) m = moveTo k (tryChunk s m) := by
  rw [tryChunk, tryChunk, moveTo_slice]
  cases s.slice with
  | none => rfl
  | some sl => dsimp only; rw [chunkStep_moveTo, apply_ite (moveTo k)]

theorem feedSlice_moveTo (k : Nat) (s : State) : feedSlice (moveTo k s) = atIndex k (feedSlice s) := by
  have hfold (ms : List Nat) : ms.foldl tryChunk (moveTo k s) = moveTo k (ms.foldl tryChunk s) :=
    List.foldl_hom (moveTo k) (tryChunk_moveTo k)
  rw [feedSlice, feedSlice, moveTo_slice]
  cases s.slice with
  | none => rfl
  | some sl => dsimp only; rw [moveTo_cfg, hfold, apply_ite (atIndex k)]; rfl

/-- Every command reads the state but for `ci`, and leaves `ci` as it finds it. -/
theorem exec_moveTo (i : Instr) (k : Nat) (s : State) : exec i (moveTo k s) = atIndex k (exec i s) := by
  cases he : s.err with
  | true => rw [exec_faulted i he]; exact exec_faulted i he
  | false =>
    cases i with
    | init => rw [exec_init_running he]; exact exec_init_running (s := moveTo k s) he
    | mixw val => rw [exec_mixw_running val he]; exact exec_mixw_running (s := moveTo k s) val he
    | fin => rw [exec_fin_running he]; exact exec_fin_running (s := moveTo k s) he
    | ldh val => rw [exec_ldh_running val he]; exact exec_ldh_running (s := moveTo k s) val he
    | cons addr len =>
      cases hw : sliceWraps s.cfg addr len with
      | true => rw [exec_cons_wraps he hw]; exact exec_cons_wraps (s := moveTo k s) he hw
      | false =>
        have hsp : SliceInSpace s addr len := sliceWraps_eq_false_iff.1 hw
        rw [exec_cons_inSpace he hsp, ← feedSlice_moveTo]
        exact exec_cons_inSpace (s := moveTo k s) he hsp

theorem execAll_cons_next {i : Instr} {s t : State} (is : List Instr) (h : exec i s = .next t) :
    execAll (i :: is) s = execAll is t := by
  rw [execAll, h]

theorem execAll_cons_refused {i : Instr} {s : State} {r : Refusal} (is : List Instr) (h : exec i s = .refused r) :
    execAll (i :: is) s = .refused r := by
  rw [execAll, h]

theorem execAll_moveTo (is : List Instr) (k : Nat) (s : State) :
    execAll is (moveTo k s) = atIndex k (execAll is s) := by
  induction is generalizing s with
  | nil => rfl
  | cons i is ih =>
    have hmove := exec_moveTo i k s
    cases hx : exec i s with
    | next t =>
      rw [hx] at hmove
      rw [execAll_cons_next is hx, execAll_cons_next is hmove, ih]
    | fault r => cases r
    | refused r =>
      rw [hx] at hmove
      rw [execAll_cons_refused is hx, execAll_cons_refused is hmove]
      rfl

end Sys2Proof.Machine
end

section
/-! PROOF. A block fed the words of commands, word by word, does what executing the commands does: each command's words but
the last are collected in `CB`, and the last runs it (30_encoding.md R66, 70_reset_and_hazards.md R145). -/

namespace Sys2Proof.Machine

/-! Between two commands -/

/-- Between two commands: no `CONS` is in progress and no word of a command has been received (R145, R148). -/
structure AtHead (s : State) : Prop where
  slice : s.slice = none
  cb : s.cb = []

theorem foldl_tryChunk_cb {s : State} (h : s.cb = []) (ms : List Nat) : (ms.foldl tryChunk s).cb = [] := by
  refine foldl_tryChunk_induct (P := fun t => t.cb = []) (fun t m ht => ?_) ms h
  obtain e | ⟨sl, -, -, e | e⟩ := tryChunk_cases t m <;> rw [e]
  · exact ht
  · rfl
  · exact ht

/-- A command begun between two commands ends so: it takes no word and its slice progress is dead (R145). -/
theorem atHead_exec {i : Instr} {s t : State} (hs : AtHead s) (h : exec i s = .next t) : AtHead t := by
  cases he : s.err with
  | true => cases (exec_faulted i he).symm.trans h; exact hs
  | false =>
    cases i with
    | init => cases (exec_init_running he).symm.trans h; exact { hs with }
    | mixw val => cases (exec_mixw_running val he).symm.trans h; exact { hs with }
    | fin => cases (exec_fin_running he).symm.trans h; exact { hs with }
    | ldh val => cases (exec_ldh_running val he).symm.trans h; exact { hs with }
    | cons addr len =>
      obtain ⟨-, rfl⟩ | ⟨-, -, rfl⟩ | ⟨-, -, rfl⟩ := execCons_next h
      · exact hs
      · exact ⟨rfl, rfl⟩
      · exact ⟨rfl, foldl_tryChunk_cb (s := beginSlice addr len s) hs.cb _⟩

/-! A run along the words on the port -/

theorem run_one (s : State) : Host.Core.run Sys2Proof.core 1 s = step s := by
  cases h : step s with
  | next t => exact run_next 0 h
  | fault r => cases r
  | refused r => exact run_refused 0 h

/-- A refused run stays refused, however many steps are added. -/
theorem run_add_refused {s : State} {r : Refusal} (j k : Nat) (h : Host.Core.run Sys2Proof.core j s = .refused r) :
    Host.Core.run Sys2Proof.core (j + k) s = .refused r := by
  induction j generalizing s with
  | zero => cases h
  | succ j ih =>
    rw [Nat.add_right_comm]
    cases hs : step s with
    | next u => rw [run_next _ hs] at h ⊢; exact ih h
    | fault r => cases r
    | refused r' => rw [run_refused _ hs] at h ⊢; exact h

theorem nextWord_of_drop {s : State} {w : CmdWord} {ws : List CmdWord}
    (h : s.prog.drop (s.ci + s.cb.length) = w :: ws) : nextWord s = some w := by
  rw [nextWord, ← List.head?_drop, h]
  rfl

theorem drop_succ_of_drop_eq_cons {α : Type*} {l xs : List α} {x : α} {n : Nat} (h : l.drop n = x :: xs) :
    l.drop (n + 1) = xs := by
  rw [← List.tail_drop, h]
  rfl

/-- R126: a faulted block discards the words it is fed, one a step. -/
theorem run_discards {s : State} {ws rest : List CmdWord} (he : s.err = true) (hcb : s.cb = [])
    (hp : s.prog.drop s.ci = ws ++ rest) :
    Host.Core.run Sys2Proof.core ws.length s = .next (moveTo (s.ci + ws.length) s) := by
  induction ws generalizing s with
  | nil => rfl
  | cons w ws ih =>
    have hw : nextWord s = some w := nextWord_of_drop (by rw [hcb]; exact hp)
    rw [List.length_cons, run_next _ (step_faulted_of_some he hw),
      ih (s := discard s) he hcb (drop_succ_of_drop_eq_cons hp), discard_ci, Nat.add_assoc, Nat.add_comm 1]
    rfl

/-- R66: words that leave their command incomplete are collected in `CB`, one a step. -/
theorem run_collects {s : State} {ws rest : List CmdWord} {k : Nat} (he : s.err = false) (hsl : s.slice = none)
    (hp : s.prog.drop (s.ci + s.cb.length) = ws ++ rest) (hd : decode s.cfg (s.cb ++ ws) = .more k) :
    Host.Core.run Sys2Proof.core ws.length s = .next { s with cb := s.cb ++ ws } := by
  induction ws generalizing s with
  | nil => rw [List.append_nil]; rfl
  | cons w ws ih =>
    rw [List.append_cons] at hd ⊢
    obtain ⟨j, hmore⟩ := decode_more_of_append hd
    have hstep : step s = .next { s with cb := s.cb ++ [w] } :=
      (step_eq_acceptWord he hsl (nextWord_of_drop hp)).trans (acceptWord_more hmore)
    rw [List.length_cons, run_next _ hstep]
    refine ih (s := { s with cb := s.cb ++ [w] }) he hsl ?_ hd
    rw [List.length_append]
    exact drop_succ_of_drop_eq_cons hp

theorem run_collects_atHead {s : State} {ws rest : List CmdWord} {k : Nat} (he : s.err = false) (hs : AtHead s)
    (hp : s.prog.drop s.ci = ws ++ rest) (hd : decode s.cfg ws = .more k) :
    Host.Core.run Sys2Proof.core ws.length s = .next { s with cb := ws } := by
  have hrun := run_collects (s := s) (ws := ws) (rest := rest) (k := k) he hs.slice
  rw [hs.cb] at hrun
  exact hrun hp hd

/-- The last word of a command accepted at a head moves `ci` past the command's words. -/
theorem advance_collected {s : State} (hs : AtHead s) (ws : List CmdWord) :
    advance { s with cb := ws } = moveTo (s.ci + (ws.length + 1)) s := by
  rw [advance, moveTo, ← Nat.add_assoc, ← hs.cb]

/-- A block between two commands, fed the words of one, executes it, with `ci` moved past them (R66; log entry 10). -/
theorem run_encode {s : State} {i : Instr} {rest : List CmdWord} (hs : AtHead s) (hi : i.wf s.cfg = true)
    (hp : s.prog.drop s.ci = encode s.cfg i ++ rest) :
    Host.Core.run Sys2Proof.core (encode s.cfg i).length s =
      atIndex (s.ci + (encode s.cfg i).length) (exec i s) := by
  cases he : s.err with
  | true => rw [exec_faulted i he]; exact run_discards he hs.cb hp
  | false =>
    obtain hnil | ⟨ws, w, hws⟩ := List.eq_nil_or_concat' (encode s.cfg i)
    · cases hnil
    have hwhole : decode s.cfg (ws ++ [w]) = .instr i [] := by
      simpa [hws] using decode_encode (c := s.cfg) [] hi
    rw [hws, List.append_assoc] at hp
    have hcollect := run_collects_atHead he hs hp (decode_more_of_encode hws)
    have hlast : nextWord { s with cb := ws } = some w :=
      nextWord_of_drop (by dsimp only; rw [← List.drop_drop, hp, List.drop_left]; rfl)
    have hstep : step { s with cb := ws } = exec i (advance { s with cb := ws }) :=
      stepRunsDecodedInstruction { s with cb := ws } w i [] he hs.slice hlast hwhole
    rw [hws, List.length_append, run_add _ _ hcollect, ← exec_moveTo]
    exact (run_one _).trans (hstep.trans (congrArg (exec i) (advance_collected hs ws)))

/-- R145: a block between two commands, fed the words of any number of commands, executes them in order; where one of
them stops, the run stops the same way. -/
theorem run_flatMap_encode {c : Config} {is : List Instr} {s : State} {rest : List CmdWord} (hc : s.cfg = c)
    (hs : AtHead s) (hwf : ∀ i ∈ is, i.wf c = true) (hp : s.prog.drop s.ci = is.flatMap (encode c) ++ rest) :
    Host.Core.run Sys2Proof.core (is.flatMap (encode c)).length s =
      atIndex (s.ci + (is.flatMap (encode c)).length) (execAll is s) := by
  induction is generalizing s with
  | nil => rfl
  | cons i is ih =>
    obtain ⟨hi, his⟩ := List.forall_mem_cons.1 hwf
    rw [List.flatMap_cons, List.append_assoc] at hp
    have hcmd := run_encode hs (hc ▸ hi) (hc ▸ hp)
    rw [hc] at hcmd
    rw [List.flatMap_cons, List.length_append]
    cases hx : exec i s with
    | next t =>
      rw [hx] at hcmd
      obtain ⟨hcfg, hprog, -⟩ := exec_frame hx
      have ht : AtHead t := atHead_exec hs hx
      have hp' : t.prog.drop (s.ci + (encode c i).length) = is.flatMap (encode c) ++ rest := by
        rw [hprog, ← List.drop_drop, hp, List.drop_left]
      have hrest := ih (s := moveTo (s.ci + (encode c i).length) t) (hcfg.trans hc) { ht with } his hp'
      rw [run_add _ _ hcmd, hrest, execAll_moveTo, atIndex_atIndex, moveTo_ci, Nat.add_assoc, execAll_cons_next is hx]
    | fault r => cases r
    | refused r =>
      rw [hx] at hcmd
      rw [run_add_refused _ _ hcmd, execAll_cons_refused is hx]
      rfl

/-- Settles O23, by induction over the commands: each is collected word by word, and its last word runs it. -/
theorem feedingCommandsIsExecutingThem : Obligations.FeedingCommandsIsExecutingThem :=
  fun _ _ _ hsl hcb => run_flatMap_encode rfl ⟨hsl, hcb⟩

end Sys2Proof.Machine
end

section
/-! PROOF. The outcome of a program's run: where executing its commands ends, with every word consumed
(70_reset_and_hazards.md R148, 10_state.md R25). -/

namespace Sys2Proof.Machine

/-- What a list of commands keeps, when it is executed to its end. -/
theorem execAll_frame {is : List Instr} {s t : State} (h : execAll is s = .next t) :
    t.prog = s.prog ∧ t.taken = s.taken ∧ (AtHead s → AtHead t) := by
  induction is generalizing s with
  | nil => cases h; exact ⟨rfl, rfl, id⟩
  | cons i is ih =>
    obtain ⟨u, hu, ht⟩ := execAll_cons_iff.1 h
    obtain ⟨-, hprog, -⟩ := exec_frame hu
    obtain ⟨hprog', htaken', hhead'⟩ := ih ht
    exact ⟨hprog'.trans hprog, htaken'.trans (exec_taken hu), fun hs => hhead' (atHead_exec hs hu)⟩

/-- Commands only add to the values produced. -/
theorem execAll_produced {is : List Instr} {s t : State} (h : execAll is s = .next t) :
    produced t = produced s ++ appendedSince s t := by
  obtain ⟨v, hv⟩ := execAll_pushes h
  obtain ⟨-, htaken, -⟩ := execAll_frame h
  have happ : produced t = produced s ++ v := by rw [produced, produced, htaken, hv.res, List.append_assoc]
  rw [appendedSince, happ, List.drop_left]

/-- A block between two commands, with every word consumed, stays as it is. -/
theorem step_at_end {s : State} (hs : AtHead s) (hw : nextWord s = none) : step s = .next s := by
  cases he : s.err with
  | true => exact step_faulted_of_none he hw
  | false => exact step_idle he hs.slice hw

/-- The outcome of a run that has consumed its words and is at a head. -/
theorem outcomeOf_at_end (start : State) {s : State} (hs : AtHead s) (hw : nextWord s = none) :
    outcomeOf start s = some
      (if s.err then .faulted s.cause (appendedSince start s) else .normal (getH s) (appendedSince start s)) := by
  have hend : s.slice = none ∧ s.cb = [] ∧ nextWord s = none := ⟨hs.slice, hs.cb, hw⟩
  rw [outcomeOf, if_pos hend, apply_ite some]

/-- A waiting block shows no outcome. -/
theorem outcomeOf_waiting (start : State) {s : State} (h : Waiting s) : outcomeOf start s = none := by
  obtain ⟨he, -, hcb, -⟩ := h
  simp [outcomeOf, he, hcb]

/-- The host's taking of results changes no outcome: the record of what it took is part of the list. -/
theorem outcomeOf_takeResult (start s : State) : outcomeOf start (takeResult s).2 = outcomeOf start s := by
  have happ : appendedSince start (takeResult s).2 = appendedSince start s := by
    rw [appendedSince, produced_takeResult, appendedSince]
  rw [outcomeOf, happ]
  obtain ⟨-, e⟩ | ⟨r, rs, -, e⟩ := takeResult_cases s <;> rw [e] <;> rfl

section
variable {p : Program} {is : List Instr} {t : State} (hstart : AtHead p.start)
  (hwords : p.words = is.flatMap (encode p.cfg)) (hexec : execAll is (loadProgram p) = .next t)
include hstart

theorem atHead_loadProgram : AtHead (loadProgram p) := { hstart with }

theorem loadProgram_prog : (loadProgram p).prog = p.words := by
  rw [loadProgram, hstart.cb, List.nil_append]

include hexec

/-- After the commands of a program its words are all consumed. -/
theorem program_end : AtHead (moveTo p.words.length t) ∧ nextWord (moveTo p.words.length t) = none := by
  obtain ⟨hprog, -, hhead⟩ := execAll_frame hexec
  have ht : AtHead t := hhead (atHead_loadProgram hstart)
  refine ⟨{ ht with }, ?_⟩
  rw [nextWord, moveTo_prog, hprog, loadProgram_prog hstart, moveTo_cb, ht.cb]
  exact List.getElem?_eq_none le_rfl

include hwords

/-- The run of a program ends where executing its commands ends, with every word consumed. -/
theorem runProgram_eq (hwf : ∀ i ∈ is, i.wf p.cfg = true) : runProgram p = .next (moveTo p.words.length t) := by
  have hp : (loadProgram p).prog.drop 0 = is.flatMap (encode p.cfg) ++ [] := by
    rw [List.append_nil, ← hwords]
    exact loadProgram_prog hstart
  have hrun := run_flatMap_encode (c := p.cfg) (s := loadProgram p) rfl (atHead_loadProgram hstart) hwf hp
  rw [hexec, ← hwords, atIndex_next] at hrun
  obtain ⟨hhead, hnone⟩ := program_end hstart hexec
  rw [runProgram, run_add _ _ hrun, run_one]
  have hci : (loadProgram p).ci + p.words.length = p.words.length := Nat.zero_add _
  rw [hci]
  exact step_at_end hhead hnone

end

/-- Settles O60: the run ends in the state that executing the commands leaves, at a head with every word consumed;
what it adds to the values produced is what the commands push. -/
theorem programRunOutcome : Obligations.ProgramRunOutcome := by
  refine ⟨fun p is t hsl hcb hwf hwords hexec => ?_, outcomeOf_takeResult, fun start _ => outcomeOf_waiting start⟩
  have hstart : AtHead p.start := ⟨hsl, hcb⟩
  obtain ⟨hhead, hnone⟩ := program_end hstart hexec
  have happ : produced t = produced p.start ++ appendedSince p.start t :=
    execAll_produced (s := loadProgram p) hexec
  exact ⟨_, runProgram_eq hstart hwords hexec hwf, happ, outcomeOf_at_end _ hhead hnone⟩

end Sys2Proof.Machine
end
